-- ==== Sys2Proof/Word.lean ====
section
/-!
DEFINITION. The bit patterns of the block: the command word, its operand fields, the samples.
Bits are numbered from 0 at the least significant end (00_scope.md R7).
-/

namespace Sys2Proof

/-- The 32-bit command word `W` (30_encoding.md R50). -/
abbrev Word := BitVec 32

/-- The 4-bit divisor, as the field `DIV` and as the response field `div` (R50, 10_state.md R18). -/
abbrev Div := BitVec 4

/-- An 8-bit unsigned element, CONV8's operand (R52). -/
abbrev Byte := BitVec 8

/-- A 16-bit two's complement value: CONV16's element and every output sample (R18, R52). -/
abbrev Sample := BitVec 16

end Sys2Proof
end

