-- ==== Sys2Proof/Config.lean ====
section
/-!
DEFINITION. What an implementation of the block fixes and the spec leaves OPEN (00_scope.md R4, R6).
-/

namespace Sys2Proof

/-- The three parameters of the debounce filter (R4). -/
structure TrigParams where
  /-- `TRIG_MAX`, where the counter saturates. -/
  max : Nat
  /-- `TRIG_HI`, the high threshold. -/
  hi : Nat
  /-- `TRIG_LO`, the low threshold. -/
  lo : Nat
  deriving DecidableEq, Repr

/-- R4's constraint `1 <= TRIG_LO < TRIG_HI < TRIG_MAX`. -/
abbrev TrigParams.Legal (p : TrigParams) : Prop := 1 ≤ p.lo ∧ p.lo < p.hi ∧ p.hi < p.max

/-- The derived width of the counter, `CW = ceil(log2(TRIG_MAX + 1))` (R4). -/
def TrigParams.cw (p : TrigParams) : Nat := Nat.clog 2 (p.max + 1)

/-- The order in which two bytes of a Sample Asset make one 16-bit element, `ELEM_BYTE_ORDER`
(20_memory.md R33). It is the host's; no operation of the block reads it (R6). -/
inductive ByteOrder where
  | little
  | big
  deriving DecidableEq, Repr, Inhabited

namespace Config

/-- OPEN (R4, log 1): `TRIG_LO - 1`. -/
opaque trigLoGap : Nat

/-- OPEN (R4, log 1): `TRIG_HI - TRIG_LO - 1`. -/
opaque trigHiGap : Nat

/-- OPEN (R4, log 1): `TRIG_MAX - TRIG_HI - 1`. -/
opaque trigMaxGap : Nat

/-- The parameters of this machine (R4): the gaps are unknown natural numbers, so this is any triple with
`1 <= TRIG_LO < TRIG_HI < TRIG_MAX`, and no proof can tell which. -/
def trig : TrigParams where
  lo := trigLoGap + 1
  hi := trigLoGap + trigHiGap + 2
  max := trigLoGap + trigHiGap + trigMaxGap + 3

/-- OPEN (R6, R33, log 9): the platform's byte order, for the host-side helper only. -/
opaque elemByteOrder : ByteOrder

/-- R4's reference instance, for the vectors of 95_test_vectors.md only. -/
def referenceParams : TrigParams := { max := 255, hi := 240, lo := 15 }

/-- R4's small instance, for the vectors of 95_test_vectors.md only. -/
def smallParams : TrigParams := { max := 7, hi := 5, lo := 2 }

end Config
end Sys2Proof
end

