-- ==== Sys2Proof/Syntax.lean ====
section
/-!
DEFINITION. The operations of the block, one constructor per row of spec/opcode_table.json
(30_encoding.md R54). The mnemonic's suffix `.S` of R59 is the argument `stereo`.
-/

namespace Sys2Proof

/-- The five operations with their operands (R50 to R54). Pin values are no operands (R59). -/
inductive Instr where
  /-- TICK, one step of the debounce filter (41_trigger_debounce.md R80). -/
  | tick
  /-- RDTRIG, the observation of the filter (R85). -/
  | rdtrig
  /-- VOLRD, the Volume Mapper (40_volume_mapper.md R70). -/
  | volrd
  /-- CONV8 `b`, `d` with the flag `ST` (42_format_converter.md R100). -/
  | conv8 (d : Div) (stereo : Bool) (b : Byte)
  /-- CONV16 `x`, `d` with the flag `ST` (R101). -/
  | conv16 (d : Div) (stereo : Bool) (x : Sample)
  deriving DecidableEq, Repr

end Sys2Proof
end

