-- ==== Sys2Proof/WellFormed.lean ====
section
/-!
DEFINITION. The operand constraint that the fields' widths do not express: the divisor of CONV8 and
CONV16 lies in 1 to 8 (30_encoding.md R51, R54).
-/

namespace Sys2Proof

/-- The legal values of `DIV` (R51): 1 to 8. -/
def Instr.legalDiv (d : Div) : Bool := 1 ≤ d.toNat && d.toNat ≤ 8

/-- An operation that some command word selects (R54). -/
def Instr.wellFormed : Instr → Bool
  | .tick => true
  | .rdtrig => true
  | .volrd => true
  | .conv8 d _ _ => Instr.legalDiv d
  | .conv16 d _ _ => Instr.legalDiv d

end Sys2Proof
end

