-- ==== Sys2Proof/Decode.lean ====
section
/-!
DEFINITION. The command word format CMD, the decoder and the encoder (30_encoding.md R50 to R57). The decoder
follows the field conditions of R57; the rows of R54 (match and mask) stand beside it as data, and the two
forms are related by an obligation. Decoding reads no state and no pin (R55).
-/

namespace Sys2Proof

/-- The fields of the one format CMD (R50). -/
structure CmdFields where
  op : BitVec 4
  div : Div
  rsv : BitVec 7
  st : BitVec 1
  data : Sample
  deriving DecidableEq, Repr

/-- Why a command word is an invalid request (R57). The response does not tell them apart (R121). -/
inductive InvalidReason where
  /-- R57 (a): `OP` is not one of 0x1, 0x2, 0x3, 0x8, 0x9. -/
  | reservedOp
  /-- R57 (b): `RSV` is not 0. -/
  | reservedBits
  /-- R57 (c): TICK, RDTRIG or VOLRD with a field it does not use not 0. -/
  | unusedField
  /-- R57 (d): CONV8 or CONV16 with `DIV` 0 or above 8. -/
  | divRange
  /-- R57 (e): CONV8 with `W[15:8]` not 0. -/
  | dataHigh
  deriving DecidableEq, Repr

/-- The slices of R50. -/
def splitWord (w : Word) : CmdFields where
  op := w.extractLsb' 28 4
  div := w.extractLsb' 24 4
  rsv := w.extractLsb' 17 7
  st := w.extractLsb' 16 1
  data := w.extractLsb' 0 16

/-- The word with these fields: R50's slices joined, the highest first. -/
def joinFields (f : CmdFields) : Word := f.op ++ f.div ++ f.rsv ++ f.st ++ f.data

/-- The flag `ST` as a truth value: 1 selects passthrough (R53). -/
def stereoOfBit (b : BitVec 1) : Bool := b == 1#1

/-- `ST` as a bit. -/
def bitOfStereo (s : Bool) : BitVec 1 := if s then 1#1 else 0#1

/-- TICK, RDTRIG, VOLRD use no field but `OP` (R54), so the others must be 0 (R57 (c)). -/
def decodePlain (f : CmdFields) (i : Instr) : Except InvalidReason Instr :=
  if f.div = 0 ∧ f.st = 0 ∧ f.data = 0 then .ok i else .error .unusedField

/-- CONV8 (R52, R54, R57 (d), (e)). -/
def decodeConv8 (f : CmdFields) : Except InvalidReason Instr :=
  if f.div = 0 ∨ 8 < f.div.toNat then .error .divRange
  else if f.data.extractLsb' 8 8 ≠ 0 then .error .dataHigh
  else .ok (.conv8 f.div (stereoOfBit f.st) (f.data.extractLsb' 0 8))

/-- CONV16 (R52, R54, R57 (d)). -/
def decodeConv16 (f : CmdFields) : Except InvalidReason Instr :=
  if f.div = 0 ∨ 8 < f.div.toNat then .error .divRange
  else .ok (.conv16 f.div (stereoOfBit f.st) f.data)

/-- The opcode map of R54 with the refusals of R57. A word that breaks several conditions is named by the
first that is tested, which nothing shows (R123, log 13). -/
def decodeFields (f : CmdFields) : Except InvalidReason Instr :=
  if f.rsv ≠ 0 then .error .reservedBits
  else if f.op = 0x1 then decodePlain f .tick
  else if f.op = 0x2 then decodePlain f .rdtrig
  else if f.op = 0x3 then decodePlain f .volrd
  else if f.op = 0x8 then decodeConv8 f
  else if f.op = 0x9 then decodeConv16 f
  else .error .reservedOp

/-- The decoder: total on the 2^32 command words (R55). -/
def decode (w : Word) : Except InvalidReason Instr := decodeFields (splitWord w)

/-- The fields that R54 and R59 give an operation; a field it does not use is 0 (R50). -/
def fieldsOf : Instr → CmdFields
  | .tick => { op := 0x1, div := 0, rsv := 0, st := 0, data := 0 }
  | .rdtrig => { op := 0x2, div := 0, rsv := 0, st := 0, data := 0 }
  | .volrd => { op := 0x3, div := 0, rsv := 0, st := 0, data := 0 }
  | .conv8 d s b => { op := 0x8, div := d, rsv := 0, st := bitOfStereo s, data := b.setWidth 16 }
  | .conv16 d s x => { op := 0x9, div := d, rsv := 0, st := bitOfStereo s, data := x }

/-- The encoder (R59): the one command word of an operation. -/
def encode (i : Instr) : Word := joinFields (fieldsOf i)

/-- The command word of `TICK` (R80), the only one the tick agent issues (60_exceptions.md R130). -/
def tickWord : Word := 0x10000000

/-- The command word of `RDTRIG`, which WAITTRIG issues (R60, R85). -/
def rdtrigWord : Word := 0x20000000

/-- A row of the opcode map (R54): the word must have `word AND mask = pattern`, and for the converter
class `1 <= W[27:24] <= 8` besides. -/
structure OpcodeRow where
  mnemonic : String
  pattern : Word
  mask : Word
  usesDiv : Bool
  deriving DecidableEq, Repr

/-- The five rows of R54, as the table prints them. -/
def rowOf : Instr → OpcodeRow
  | .tick => { mnemonic := "TICK", pattern := 0x10000000, mask := 0xFFFFFFFF, usesDiv := false }
  | .rdtrig => { mnemonic := "RDTRIG", pattern := 0x20000000, mask := 0xFFFFFFFF, usesDiv := false }
  | .volrd => { mnemonic := "VOLRD", pattern := 0x30000000, mask := 0xFFFFFFFF, usesDiv := false }
  | .conv8 _ _ _ => { mnemonic := "CONV8", pattern := 0x80000000, mask := 0xF0FEFF00, usesDiv := true }
  | .conv16 _ _ _ => { mnemonic := "CONV16", pattern := 0x90000000, mask := 0xF0FE0000, usesDiv := true }

/-- The whole map (R54). The operands of the two converter rows do not show in a row. -/
def opcodeRows : List OpcodeRow :=
  [rowOf .tick, rowOf .rdtrig, rowOf .volrd, rowOf (.conv8 1 false 0), rowOf (.conv16 1 false 0)]

/-- The word selects the row (R54). -/
def selectsRow (w : Word) (r : OpcodeRow) : Bool :=
  w &&& r.mask == r.pattern && (!r.usesDiv || Instr.legalDiv (w.extractLsb' 24 4))

/-- The command word whose lowest `nbits` bits are `w` and whose other bits are 0. The block takes whole words
by value, so there is no byte order to lay out (20_memory.md R30, R33). -/
def tableWord (nbits w : Nat) : Word := BitVec.ofNat 32 (w % 2 ^ nbits)

/-- What the decoder reads from such a word. -/
def decodeTableWord (nbits w : Nat) : Option Instr :=
  match decode (tableWord nbits w) with
  | .ok i => some i
  | .error _ => none

end Sys2Proof
end

