-- ==== Sys2Proof/Machine/State.lean ====
section
/-!
DEFINITION. The state of the block (10_state.md), the record it answers with, and the requests its agents have
still to issue. All of it is plain data.
-/

namespace Sys2Proof.Machine

/-- The debounced trigger state (R12). -/
inductive TrigStatus where
  | clear
  | set
  deriving DecidableEq, Repr, Inhabited

/-- The levels on the input pins, logical values (R15, R16). -/
structure Pins where
  /-- `TRIG_RAW`: the raw trigger input is asserted. -/
  trigRaw : Bool
  /-- `VOL_OPT[2:0]`, weights 4, 2, 1. -/
  volOpt : BitVec 3
  deriving DecidableEq, Repr, Inhabited

/-- The response record (R18). A field that an operation's rule does not set is 0, which is each field's
default here. -/
structure Response where
  inv : Bool := false
  va : Bool := false
  vb : Bool := false
  a : Sample := 0
  b : Sample := 0
  div : Div := 0
  st : BitVec 1 := 0
  /-- `CW` bits in the spec; the invariant keeps the number below `2^CW`. -/
  cnt : Nat := 0
  deriving DecidableEq, Repr

/-- What issues operations (60_exceptions.md R130). -/
inductive Agent where
  /-- The tick agent. -/
  | tick
  /-- The host agent. -/
  | host
  deriving DecidableEq, Repr, Inhabited

/-- One item of an agent's list (R14, 70_reset_and_hazards.md R156). Any agent may issue any word (R129). -/
inductive Request where
  /-- A command word, valid or not, and the pin values the environment presents when it executes. -/
  | word (w : Word) (pins : Pins)
  /-- The pseudo-operation WAITTRIG (R60, R86): a fresh RDTRIG at each turn until it returns the target. -/
  | waitTrig (target : TrigStatus)
  deriving DecidableEq, Repr, Inhabited

/-- What happens next at the block's boundary (20_memory.md R38, R140). -/
inductive Turn where
  /-- The agent issues its next operation. -/
  | agent (a : Agent)
  /-- The platform drives `RESET`. -/
  | reset
  deriving DecidableEq, Repr, Inhabited

/-- How a list goes on after its written beginning (R14, R156: "finite, or infinite"; log 17). -/
inductive Rest (α : Type) where
  /-- It ends: the list is finite. -/
  | ends
  /-- The loop over and over, for ever. -/
  | again (loop : List α)
  /-- An unknown infinite list, from its place `pos` on: its items are free values. -/
  | free (key pos : Nat)
  deriving DecidableEq, Repr

/-- A finite or infinite list as plain data: the written beginning, and how it goes on. -/
structure Feed (α : Type) where
  front : List α
  rest : Rest α
  deriving DecidableEq, Repr

/-- Why a step stops with a fault: never. The block is never stuck, faulted or pending, and an invalid request is
an answer with `inv = 1` (R120, R157; log 12). -/
inductive Fault where
  deriving DecidableEq, Repr

/-- Why a step has no meaning. -/
inductive Refusal where
  /-- Raised by an arm of `exec` whose operation has no meaning yet; no arm raises it. Safe: the model would
  stop where the block goes on. -/
  | notModelled (mnemonic : String)
  deriving DecidableEq, Repr

/-- The machine. `cnt` and `status` are the whole architectural state of the block (R10); the parameters are its
configuration; the other fields are its boundary: pins, answers, and what is still to come. -/
structure State where
  /-- `CNT`, the debounce counter (R11). -/
  cnt : Nat
  /-- `STATUS`, the block's only flag (R12). -/
  status : TrigStatus
  /-- `TRIG_MAX`, `TRIG_HI`, `TRIG_LO`, fixed for the life of the machine (R4, R141; log 1). -/
  params : TrigParams
  /-- The levels the environment presents now (R8; log 4). -/
  pins : Pins
  /-- The responses returned so far, the newest first (R156; log 5). -/
  responses : List Response
  /-- What the tick agent has still to issue, in its order; infinite for one that never stops (R130, R156). -/
  tickQueue : Feed Request
  /-- What the host agent has still to issue, in its order (R130, R156). -/
  hostQueue : Feed Request
  /-- Who moves next, turn by turn (R38; log 3). -/
  schedule : Feed Turn
  deriving DecidableEq, Repr

/-- The machine right after `RESET` (R21): `CNT = 0`, `STATUS = CLEAR`. The spec gives no pin a reset value
(log 4), and nothing has been asked of the block yet (log 5, log 6). -/
def State.reset : State where
  cnt := 0
  status := .clear
  params := Config.trig
  pins := { trigRaw := false, volOpt := 0 }
  responses := []
  tickQueue := { front := [], rest := .ends }
  hostQueue := { front := [], rest := .ends }
  schedule := { front := [], rest := .ends }

end Sys2Proof.Machine
end

