-- ==== Sys2Proof/Machine/Operands.lean ====
section
/-!
DEFINITION. What an operation reads: the pins it samples and its operand fields as numbers.
-/

namespace Sys2Proof.Machine

/-- One bit as the number 0 or 1. -/
def bitNat (b : Bool) : Nat := if b then 1 else 0

/-- `pin(TRIG_RAW)` (10_state.md R15). -/
def sampleTrigRaw (s : State) : Bool := s.pins.trigRaw

/-- `pin(VOL_OPT[k])` as 0 or 1 (R16). -/
def sampleVolOpt (s : State) (k : Nat) : Nat := bitNat (s.pins.volOpt.getLsbD k)

/-- The divisor a converter divides by, where the field holds a legal one (30_encoding.md R51). -/
def divisorOf (d : Div) : Option Nat := if 1 ≤ d.toNat ∧ d.toNat ≤ 8 then some d.toNat else none

/-- CONV8's element recentred and shifted, `s = (b - 128) * 256` (42_format_converter.md R100). -/
def recentre (b : Byte) : Int := ((b.toNat : Int) - 128) * 256

/-- CONV16's element, `signed_16(W[15:0])` (R52, R101). -/
def signed16 (x : Sample) : Int := x.toInt

/-- The coding `CLEAR = 0`, `SET = 1` (R12). -/
def statusBit : TrigStatus → BitVec 1
  | .clear => 0
  | .set => 1

end Sys2Proof.Machine
end

