-- ==== Sys2Proof/Machine/Ops.lean ====
section
/-!
DEFINITION. The shared operations: the updates of the state, the response, the invalid request, `RESET`, and the
converter's division and output step.
-/

namespace Sys2Proof.Machine

/-- `CNT <- c ; STATUS <- st`, one update of the pair (20_memory.md R36). -/
def setTrigger (c : Nat) (st : TrigStatus) (s : State) : State := { s with cnt := c, status := st }

/-- The operation returns the response (10_state.md R18). -/
def respond (r : Response) (s : State) : State := { s with responses := r :: s.responses }

/-- The environment presents these pin values (00_scope.md R8). -/
def setPins (p : Pins) (s : State) : State := { s with pins := p }

/-- The one abnormal response: `inv = 1`, every other field 0 (60_exceptions.md R120). -/
def invalidResponse : Response := { inv := true }

/-- `invalid()`, the block's only exception (R120): no state changes, no pin is sampled, nothing is latched. There
is no trap entry and no trap return (R127, R128). -/
def invalid (s : State) : State := respond invalidResponse s

/-- The event `RESET` (R21, 70_reset_and_hazards.md R140, R141): the counter and the status, nothing else. -/
def applyReset (s : State) : State := setTrigger 0 .clear s

/-- The output pin `TRIG_STATE`, which always equals `STATUS` (R17). -/
def State.trigState (s : State) : BitVec 1 := statusBit s.status

/-- `tdiv(n, d)` for `d > 0`, division truncating toward zero (R8): `floor(n / d)` when `n >= 0`, and
`-floor((-n) / d)` when `n < 0`. Lean's `/` on the integers is the floor for a positive divisor. -/
def tdiv (n : Int) (d : Nat) : Int := if 0 ≤ n then n / d else -((-n) / d)

/-- `bits_16(y)` (R7). -/
def bits16 (y : Int) : Sample := BitVec.ofInt 16 y

/-- The response of `emit(y)` (42_format_converter.md R102 with `ST = 0`, R109 with `ST = 1`). -/
def emitResponse (stereo : Bool) (y : Int) : Response :=
  if stereo then { va := true, a := bits16 y }
  else { va := true, vb := true, a := bits16 y, b := bits16 y }

/-- A conversion of the integer `n` by the divisor field (R100, R101): an illegal divisor makes the request
invalid, else `y = tdiv(n, d)` and `emit(y)`. -/
def convert (n : Int) (d : Div) (stereo : Bool) (s : State) : State :=
  match divisorOf d with
  | some k => respond (emitResponse stereo (tdiv n k)) s
  | none => invalid s

/-- An operation that runs to its end: no operation of the block faults (R121). -/
def done (s : State) : Host.Outcome State Fault Refusal := .next s

end Sys2Proof.Machine
end

