-- ==== Sys2Proof/Machine/Converter.lean ====
section
/-!
DEFINITION. The Sample Format Converter (42_format_converter.md).
-/

namespace Sys2Proof.Machine

/-- CONV8 (R100): recentre, shift, divide, emit. -/
def execConv8 (d : Div) (stereo : Bool) (b : Byte) (s : State) : Host.Outcome State Fault Refusal :=
  done (convert (recentre b) d stereo s)

/-- CONV16 (R101): divide, emit. -/
def execConv16 (d : Div) (stereo : Bool) (x : Sample) (s : State) : Host.Outcome State Fault Refusal :=
  done (convert (signed16 x) d stereo s)

end Sys2Proof.Machine
end

