-- ==== Sys2Proof/Machine/Flags.lean ====
section
/-!
DEFINITION. The block's only flag, `STATUS`, and the counter it is derived from
(41_trigger_debounce.md R80).
-/

namespace Sys2Proof.Machine

/-- The counter after a tick: up by one and saturating at `TRIG_MAX`, or down by one and floored at 0 (R80). -/
def nextCount (p : TrigParams) (raw : Bool) (c : Nat) : Nat :=
  match raw with
  | true => min (c + 1) p.max
  | false => c - 1

/-- The status after a tick, from the updated counter and the old status: both comparisons are strict, and
inside the band the status is retained (R80). -/
def nextStatus (p : TrigParams) (c : Nat) (old : TrigStatus) : TrigStatus :=
  if c < p.lo then .clear
  else if c > p.hi then .set
  else old

end Sys2Proof.Machine
end

