-- ==== Sys2Proof/Machine/Trigger.lean ====
section
/-!
DEFINITION. The Trigger Debounce Filter (41_trigger_debounce.md).
-/

namespace Sys2Proof.Machine

/-- TICK (R80): the counter moves by the sampled pin, then the status by the updated counter. The response carries
nothing but `inv = 0`. -/
def execTick (s : State) : Host.Outcome State Fault Refusal :=
  let c := nextCount s.params (sampleTrigRaw s) s.cnt
  done (respond {} (setTrigger c (nextStatus s.params c s.status) s))

/-- RDTRIG (R85): one snapshot of the pair. -/
def execRdtrig (s : State) : Host.Outcome State Fault Refusal :=
  done (respond { st := statusBit s.status, cnt := s.cnt } s)

end Sys2Proof.Machine
end

