-- ==== Sys2Proof/Machine/Volume.lean ====
section
/-!
DEFINITION. The Volume Mapper (40_volume_mapper.md).
-/

namespace Sys2Proof.Machine

/-- The divisor of the option pins (R70), with the document's clamp, which is never taken
(90_conflicts.md C4). -/
def volumeDivisor (o2 o1 o0 : Nat) : Nat :=
  let d := 4 * o2 + 2 * o1 + o0 + 1
  if d = 0 then 1 else d

/-- VOLRD (R70): the three pins are sampled together (log 8). -/
def execVolrd (s : State) : Host.Outcome State Fault Refusal :=
  let d := volumeDivisor (sampleVolOpt s 2) (sampleVolOpt s 1) (sampleVolOpt s 0)
  done (respond { div := BitVec.ofNat 4 d } s)

end Sys2Proof.Machine
end

