-- ==== Sys2Proof/Machine/Dispatch.lean ====
section
/-!
DEFINITION. One arm per operation: the meaning of each is its own definition.
-/

namespace Sys2Proof.Machine

def exec (i : Instr) (s : State) : Host.Outcome State Fault Refusal :=
  match i with
  | .tick => Sys2Proof.Machine.execTick s
  | .rdtrig => Sys2Proof.Machine.execRdtrig s
  | .volrd => Sys2Proof.Machine.execVolrd s
  | .conv8 d stereo b => Sys2Proof.Machine.execConv8 d stereo b s
  | .conv16 d stereo x => Sys2Proof.Machine.execConv16 d stereo x s

end Sys2Proof.Machine
end

