-- ==== Sys2Proof/Machine/Feed.lean ====
section
/-!
DEFINITION. Finite and infinite lists of requests and of turns (10_state.md R14, 70_reset_and_hazards.md R156), and
the free values that an unknown infinite list is made of.
-/

namespace Sys2Proof.Config

/-- FREE (R8, R130, log 17): the pin values the environment presents to a tick agent that never stops. -/
opaque freePins : Nat → Nat → Machine.Pins

/-- FREE (R14, R157, log 17): the items of a host agent's unknown infinite list. -/
opaque freeRequest : Nat → Nat → Machine.Request

/-- FREE (R38, R140, log 17): the turns of an unknown infinite run. -/
opaque freeTurn : Nat → Nat → Machine.Turn

end Sys2Proof.Config

namespace Sys2Proof.Machine

/-- The first item and the list after it, where there is one. -/
def Feed.next {α : Type} (free : Nat → Nat → α) (f : Feed α) : Option (α × Feed α) :=
  match f.front, f.rest with
  | x :: xs, r => some (x, { front := xs, rest := r })
  | [], .ends => none
  | [], .again [] => none
  | [], .again (x :: xs) => some (x, { front := xs, rest := .again (x :: xs) })
  | [], .free key pos => some (free key pos, { front := [], rest := .free key (pos + 1) })

/-- The item at a place, the first at 0; none past the end. -/
def Feed.item {α : Type} (free : Nat → Nat → α) : Nat → Feed α → Option α
  | 0, f => (f.next free).map Prod.fst
  | n + 1, f =>
    match f.next free with
    | some (_, g) => Feed.item free n g
    | none => none

/-- These items first, then the list. -/
def Feed.prepend {α : Type} (xs : List α) (f : Feed α) : Feed α := { f with front := xs ++ f.front }

/-- One item put in front of the list. -/
def Feed.push {α : Type} (x : α) (f : Feed α) : Feed α := f.prepend [x]

/-- The finite list. -/
def Feed.finite {α : Type} (xs : List α) : Feed α := { front := xs, rest := .ends }

/-- The infinite list that repeats the loop for ever. -/
def Feed.forever {α : Type} (loop : List α) : Feed α := { front := [], rest := .again loop }

/-- The items of an agent's unknown infinite list: the tick agent issues only TICK, with the environment's pin
values; the host agent issues anything (R130, R157). -/
def freeRequestOf (a : Agent) (key pos : Nat) : Request :=
  match a with
  | .tick => .word tickWord (Config.freePins key pos)
  | .host => Config.freeRequest key pos

end Sys2Proof.Machine
end

