-- ==== Sys2Proof/Machine/Port.lean ====
section
/-!
DEFINITION. The command port: which request comes next, how a word is answered, and how a WAITTRIG goes on
waiting. The block takes one operation at a time, in a total order that keeps each agent's own order
(20_memory.md R38).
-/

namespace Sys2Proof.Machine

/-- What an agent has still to issue. -/
def queueOf (a : Agent) (s : State) : Feed Request :=
  match a with
  | .tick => s.tickQueue
  | .host => s.hostQueue

/-- The agent's list becomes `q`. -/
def setQueue (a : Agent) (q : Feed Request) (s : State) : State :=
  match a with
  | .tick => { s with tickQueue := q }
  | .host => { s with hostQueue := q }

/-- The turns still to come become `ts`. -/
def setSchedule (ts : Feed Turn) (s : State) : State := { s with schedule := ts }

/-- The agent's next request and what it has to issue after that (R14). -/
def nextRequest (a : Agent) (s : State) : Option (Request × Feed Request) := (queueOf a s).next (freeRequestOf a)

/-- The next turn and the turns after it (R38). -/
def nextTurn (s : State) : Option (Turn × Feed Turn) := s.schedule.next Config.freeTurn

/-- What the next turn brings to the block. -/
inductive Arrival where
  /-- Nothing is asked of the block: no turn is left, or the agent whose turn it is has nothing to issue. -/
  | idle (s : State)
  /-- The platform drives `RESET`. -/
  | reset (s : State)
  /-- A command word at the port. -/
  | word (w : Word) (s : State)
  /-- One iteration of the agent's WAITTRIG. -/
  | wait (a : Agent) (target : TrigStatus) (s : State)
  deriving DecidableEq, Repr

/-- The state an arrival comes with. -/
def Arrival.state : Arrival → State
  | .idle s => s
  | .reset s => s
  | .word _ s => s
  | .wait _ _ s => s

/-- Take the agent's next request off its list and present its pin values (R14). WAITTRIG's RDTRIG samples no pin
(R85), so there the pins stay. -/
def takeRequest (a : Agent) (s : State) : Arrival :=
  match nextRequest a s with
  | none => .idle s
  | some (.word w p, q) => .word w (setPins p (setQueue a q s))
  | some (.waitTrig g, q) => .wait a g (setQueue a q s)

/-- Take the next turn. The block never acts unprompted (R130): with no turn left nothing happens (R156, log 6). -/
def takeTurn (s : State) : Arrival :=
  match nextTurn s with
  | none => .idle s
  | some (.reset, ts) => .reset (setSchedule ts s)
  | some (.agent a, ts) => takeRequest a (setSchedule ts s)

/-- Answer a command word: run the operation it selects, or `invalid()` (30_encoding.md R55, R57). -/
def runWord (w : Word) (s : State) : Host.Outcome State Fault Refusal :=
  match decode w with
  | .ok i => exec i s
  | .error _ => done (invalid s)

/-- The newest response returns the awaited status. -/
def waitOver (g : TrigStatus) (s : State) : Bool :=
  match s.responses with
  | r :: _ => r.st == statusBit g
  | [] => false

/-- After one iteration of WAITTRIG (R86): leave the loop if the RDTRIG just made returns the target, else the same
request stands first in the agent's list again. -/
def goOnWaiting (a : Agent) (g : TrigStatus) (s : State) : State :=
  if waitOver g s then s else setQueue a ((queueOf a s).push (.waitTrig g)) s

/-- Apply a function to a next state; leave a stop as it is. -/
def onNext (f : State → State) : Host.Outcome State Fault Refusal → Host.Outcome State Fault Refusal
  | .next s => .next (f s)
  | .fault r => .fault r
  | .refused r => .refused r

/-- What the block does with an arrival. -/
def serve : Arrival → Host.Outcome State Fault Refusal
  | .idle s => done s
  | .reset s => done (applyReset s)
  | .word w s => runWord w s
  | .wait a g s => onNext (goOnWaiting a g) (runWord rdtrigWord s)

/-- The host agent presents the word at the very next turn, the pins staying as they are (log 7). -/
def presentWord (w : Word) (s : State) : State :=
  setSchedule (s.schedule.push (.agent .host)) (setQueue .host (s.hostQueue.push (.word w s.pins)) s)

end Sys2Proof.Machine
end

