-- ==== Sys2Proof/Machine/Step.lean ====
section
/-!
DEFINITION. One step of the machine: one turn at the block's boundary, each operation whole
(00_scope.md R9, 20_memory.md R38).
-/

namespace Sys2Proof.Machine

/-- The next turn is taken and served. -/
def step (s : State) : Host.Outcome State Fault Refusal := serve (takeTurn s)

/-- The state in which the next step's command word is the one the opcode table numbers this way. -/
def State.withFetchWord (s : State) (nbits w : Nat) : State := presentWord (tableWord nbits w) s

end Sys2Proof.Machine
end

