-- ==== Sys2Proof/Machine/HostSide.lean ====
section
/-!
DEFINITION. The host's side of the command port: the refill listings (30_encoding.md R61), the samples a consumer
stores (10_state.md R18), and the elements of a 16-bit asset (20_memory.md R33). No operation of the block uses
any of it.
-/

namespace Sys2Proof.Machine

/-- REFILL8 `d, b0, ..., bn` with `ST = 0` (R61). -/
def refill8 (d : Div) (bs : List Byte) : List Instr := bs.map fun b => .conv8 d false b

/-- REFILL16 `d, x0, ..., xn` with `ST = 0` (R61). -/
def refill16 (d : Div) (xs : List Sample) : List Instr := xs.map fun x => .conv16 d false x

/-- The requests that issue these operations, the environment showing the same pins throughout. -/
def requestsOf (p : Pins) (is : List Instr) : List Request := is.map fun i => .word (encode i) p

/-- The output samples the consumer of a response stores, in order: `a` then `b`, or `a` alone (R18). -/
def Response.samples (r : Response) : List Sample :=
  (if r.va then [r.a] else []) ++ (if r.vb then [r.b] else [])

/-- The output stream of a run so far, the oldest sample first (R18, R32). -/
def State.outputStream (s : State) : List Sample := s.responses.reverse.flatMap Response.samples

/-- One 16-bit element from the two bytes at the lower and the higher place (R33). -/
def elementOfBytes (o : ByteOrder) (first second : Byte) : Sample :=
  match o with
  | .little => second ++ first
  | .big => first ++ second

/-- The elements of a 16-bit asset, two bytes each, in asset order (R32, R33). A last odd byte makes no element. -/
def elementsOfBytes (o : ByteOrder) : List Byte → List Sample
  | first :: second :: rest => elementOfBytes o first second :: elementsOfBytes o rest
  | [_] => []
  | [] => []

/-- REFILL16 over the bytes of an asset, in this platform's byte order (R33, R154). -/
def refill16OfBytes (d : Div) (bytes : List Byte) : List Instr :=
  refill16 d (elementsOfBytes Config.elemByteOrder bytes)

end Sys2Proof.Machine
end

