-- ==== Sys2Proof/Safety.lean ====
section
/-!
DEFINITION. The terms in which claims about the block are written: the invariant, the invalid words, sequences of
operations and of ticks.
-/

namespace Sys2Proof.Machine

/-- The hysteresis invariant (41_trigger_debounce.md R87). -/
abbrev Hysteresis (s : State) : Prop :=
  (s.status = .set → s.params.lo ≤ s.cnt) ∧ (s.status = .clear → s.cnt ≤ s.params.hi)

/-- A state the block can be in: legal parameters (00_scope.md R4), the counter in its range (10_state.md R11), and
the hysteresis invariant (R87). -/
abbrev FilterInv (s : State) : Prop := s.params.Legal ∧ s.cnt ≤ s.params.max ∧ Hysteresis s

/-- The conditions (a) to (e) under which a command word is an invalid request (30_encoding.md R57), on the word's
own slices. -/
abbrev InvalidWord (w : Word) : Prop :=
  (w.extractLsb' 28 4 ≠ 0x1 ∧ w.extractLsb' 28 4 ≠ 0x2 ∧ w.extractLsb' 28 4 ≠ 0x3 ∧
    w.extractLsb' 28 4 ≠ 0x8 ∧ w.extractLsb' 28 4 ≠ 0x9) ∨
  w.extractLsb' 17 7 ≠ 0 ∨
  ((w.extractLsb' 28 4 = 0x1 ∨ w.extractLsb' 28 4 = 0x2 ∨ w.extractLsb' 28 4 = 0x3) ∧ w.extractLsb' 0 28 ≠ 0) ∨
  ((w.extractLsb' 28 4 = 0x8 ∨ w.extractLsb' 28 4 = 0x9) ∧
    ((w.extractLsb' 24 4).toNat = 0 ∨ 8 < (w.extractLsb' 24 4).toNat)) ∨
  (w.extractLsb' 28 4 = 0x8 ∧ w.extractLsb' 8 8 ≠ 0)

/-- Run the operation while the environment shows these pins. -/
def execWith (p : Pins) (i : Instr) (s : State) : Host.Outcome State Fault Refusal := exec i (setPins p s)

/-- Go on with `f` from a next state. -/
def andThen (o : Host.Outcome State Fault Refusal) (f : State → Host.Outcome State Fault Refusal) :
    Host.Outcome State Fault Refusal :=
  match o with
  | .next s => f s
  | .fault r => .fault r
  | .refused r => .refused r

/-- `k` steps, to the first stop if there is one (70_reset_and_hazards.md R156): the host's `core.run`, on the
state's own type. -/
def runSteps : Nat → State → Host.Outcome State Fault Refusal
  | 0, s => .next s
  | k + 1, s => andThen (step s) (runSteps k)

/-- One TICK that samples `raw`, the option pins as they are. -/
def tickWith (raw : Bool) (s : State) : Host.Outcome State Fault Refusal :=
  execWith { s.pins with trigRaw := raw } .tick s

/-- TICKs that sample these values, the first one first. -/
def tickAll : List Bool → State → Host.Outcome State Fault Refusal
  | [], s => .next s
  | raw :: raws, s => andThen (tickWith raw s) (tickAll raws)

/-- The response of the latest operation, where there is one. -/
def lastResponse (s : State) : Option Response := s.responses.head?

/-- The parts of the state that no operation touches: parameters, pins, what is still to come. -/
abbrev SameBoundary (s t : State) : Prop :=
  t.params = s.params ∧ t.pins = s.pins ∧ t.tickQueue = s.tickQueue ∧ t.hostQueue = s.hostQueue ∧
    t.schedule = s.schedule

/-- The state after `k` steps: the run from a state, which never ends (R156). An outcome other than a next state
would leave the state as it is; there is none. -/
def stateAt (s : State) : Nat → State
  | 0 => s
  | k + 1 =>
    match step (stateAt s k) with
    | .next t => t
    | .fault _ => stateAt s k
    | .refused _ => stateAt s k

/-- The turn that the step from `stateAt s k` takes: the item at place `k` of the turns to come. -/
def turnAt (s : State) (k : Nat) : Option Turn := s.schedule.item Config.freeTurn k

/-- The item at place `n` of what the agent has still to issue (R14). -/
def requestAt (a : Agent) (s : State) (n : Nat) : Option Request := (queueOf a s).item (freeRequestOf a) n

/-- The agent has an operation to issue. For the tick agent this is "the tick is enabled": it issues TICKs for as long
as the tick is enabled (60_exceptions.md R130), and it is stopped by its list ending (R157). -/
def Enabled (a : Agent) (s : State) : Prop := nextRequest a s ≠ none

/-- Weak fairness (R131): from no point on is the agent enabled for ever and postponed for ever. For the tick agent it
is the only liveness premise of the spec. -/
def FairFor (a : Agent) (s : State) : Prop :=
  ∀ n, (∀ m, n ≤ m → Enabled a (stateAt s m)) → ∃ m, n ≤ m ∧ turnAt s m = some (.agent a)

/-- The run is over: every agent has issued its whole list (R156). -/
def RunOver (s : State) : Prop := ∀ a : Agent, nextRequest a s = none

/-- The block just after `RESET`, with finite or infinite lists of requests to issue and of turns
(70_reset_and_hazards.md R156). -/
def loaded (tickReqs hostReqs : Feed Request) (turns : Feed Turn) : State :=
  { State.reset with tickQueue := tickReqs, hostQueue := hostReqs, schedule := turns }

end Sys2Proof.Machine
end

