-- ==== Sys2Proof/Certificates/Slice0/Obligations.lean ====
section
/-!
DEFINITION. The statements about the block for the provers, file by file of spec/. A statement that rests on the
spec's own inference (a rule marked [derived: ...]) or on a choice of the model says so.
-/

open Sys2Proof Sys2Proof.Machine Host

/-! ### Encoding (30_encoding.md) -/

/-- Every operation that a command word selects is read back from its word, with every operand at every value
(R54, R59). -/
def Obligations.DecodeOfEncode : Prop :=
  ∀ i : Instr, i.wellFormed = true → decode (encode i) = .ok i

/-- Each valid command word is the word of the one operation it selects, and that operation is well-formed (R54, R55, R59). -/
def Obligations.EncodeOfDecode : Prop :=
  ∀ (w : Word) (i : Instr), decode w = .ok i → i.wellFormed = true ∧ encode i = w

/-- R54, R55: the decoder answers an operation of a row exactly for the words that select the row
(`W AND mask = match`, and `1 <= W[27:24] <= 8` for the converters), and no word selects two rows. -/
def Obligations.DecodeFollowsOpcodeMap : Prop :=
  (∀ (w : Word) (r : OpcodeRow), r ∈ opcodeRows →
    (selectsRow w r = true ↔ ∃ i, decode w = .ok i ∧ rowOf i = r)) ∧
  (∀ (w : Word) (r r' : OpcodeRow), r ∈ opcodeRows → r' ∈ opcodeRows →
    selectsRow w r = true → selectsRow w r' = true → r = r')

/-- R57, R120: a word is refused by the decoder exactly when one of the conditions (a) to (e) holds, and then the
block answers `inv = 1` with every other field 0 and changes no state, whatever the pins show. -/
def Obligations.InvalidRequestAnswer : Prop :=
  ∀ w : Word, (InvalidWord w ↔ ∃ e, decode w = .error e) ∧
    (InvalidWord w → ∀ s : State, runWord w s =
      .next { s with responses :=
        { inv := true, va := false, vb := false, a := 0, b := 0, div := 0, st := 0, cnt := 0 } :: s.responses })

/-- The number of valid command words, row by row and together (R56, which the spec derives from R54). -/
def Obligations.ValidWordCount : Prop :=
  Set.ncard { w : Word | decode w = .ok .tick } = 1 ∧
  Set.ncard { w : Word | decode w = .ok .rdtrig } = 1 ∧
  Set.ncard { w : Word | decode w = .ok .volrd } = 1 ∧
  Set.ncard { w : Word | ∃ d st b, decode w = .ok (.conv8 d st b) } = 4096 ∧
  Set.ncard { w : Word | ∃ d st x, decode w = .ok (.conv16 d st x) } = 1048576 ∧
  Set.ncard { w : Word | ∃ i, decode w = .ok i } = 1052675 ∧
  Set.ncard { w : Word | ∃ e, decode w = .error e } = 2 ^ 32 - 1052675

/-- A sanity statement: words of 95_test_vectors.md and their nearest refused neighbours. -/
def Obligations.SpecWordsDecode : Prop :=
  decode 0x10000000 = .ok .tick ∧
  decode 0x20000000 = .ok .rdtrig ∧
  decode 0x30000000 = .ok .volrd ∧
  decode 0x8300007F = .ok (.conv8 3 false 127) ∧
  decode 0x820100FF = .ok (.conv8 2 true 255) ∧
  decode 0x9200FFF9 = .ok (.conv16 2 false 0xFFF9) ∧
  decode 0x9201FFF9 = .ok (.conv16 2 true 0xFFF9) ∧
  decode 0x00000000 = .error .reservedOp ∧
  decode 0x91020000 = .error .reservedBits ∧
  decode 0x10000001 = .error .unusedField ∧
  decode 0x90001234 = .error .divRange ∧
  decode 0x99001234 = .error .divRange ∧
  decode 0x8100FF80 = .error .dataHigh

/-! ### Volume Mapper (40_volume_mapper.md) -/

/-- R70: VOLRD answers the divisor of the option pins, weights 4, 2, 1, plus 1; it writes nothing else. Its word is
0x30000000 exactly; any other word with `OP = 0x3` is an invalid request. The divisor is never 0, and each divisor
1 to 8 comes from exactly one combination of the pins. -/
def Obligations.VolrdResult : Prop :=
  (∀ s : State, exec .volrd s =
    .next { s with responses :=
      { div := BitVec.ofNat 4 (4 * (s.pins.volOpt.getLsbD 2).toNat + 2 * (s.pins.volOpt.getLsbD 1).toNat +
          (s.pins.volOpt.getLsbD 0).toNat + 1) } :: s.responses }) ∧
  (∀ (s : State) (w : Word), w.extractLsb' 28 4 = 0x3 →
    runWord w s = if w = 0x30000000 then exec .volrd s
      else .next { s with responses := { inv := true } :: s.responses }) ∧
  (∀ d : Div, 1 ≤ d.toNat → d.toNat ≤ 8 → ∀ s : State, ∃! o : BitVec 3, ∃ t r,
    exec .volrd (setPins { s.pins with volOpt := o } s) = .next t ∧ lastResponse t = some r ∧ r.div = d)

/-- R71: the table of the eight combinations; the divisor is `value + 1` and lies in 1 to 8. -/
def Obligations.VolumeTable : Prop :=
  ∀ s : State, ∀ row ∈ [((false, false, false), 1), ((false, false, true), 2), ((false, true, false), 3),
      ((false, true, true), 4), ((true, false, false), 5), ((true, false, true), 6), ((true, true, false), 7),
      ((true, true, true), 8)],
    (s.pins.volOpt.getLsbD 2, s.pins.volOpt.getLsbD 1, s.pins.volOpt.getLsbD 0) = row.1 →
      ∃ t r, exec .volrd s = .next t ∧ lastResponse t = some r ∧ r.inv = false ∧ r.div.toNat = row.2 ∧
        r.div.toNat = s.pins.volOpt.toNat + 1 ∧ 1 ≤ r.div.toNat ∧ r.div.toNat ≤ 8

/-- The option inputs attenuate (R71's last sentence, which the spec derives from R70 and R104): a larger option value
gives a larger divisor, and with it a sample no larger in magnitude. -/
def Obligations.LargerOptionIsQuieter : Prop :=
  ∀ s s' : State, s.pins.volOpt.toNat < s'.pins.volOpt.toNat → ∀ x : Sample,
    ∃ t r t' r' u q u' q',
      exec .volrd s = .next t ∧ lastResponse t = some r ∧
      exec .volrd s' = .next t' ∧ lastResponse t' = some r' ∧ r.div.toNat < r'.div.toNat ∧
      exec (.conv16 r.div false x) s = .next u ∧ lastResponse u = some q ∧
      exec (.conv16 r'.div false x) s' = .next u' ∧ lastResponse u' = some q' ∧
      q'.a.toInt.natAbs ≤ q.a.toInt.natAbs

/-! ### Trigger Debounce Filter (41_trigger_debounce.md) -/

/-- R80: TICK. The counter goes up by one, saturating at MAX, or down by one, floored at 0; the status follows the
updated counter by strict comparisons; the response is `inv = 0` alone; nothing else changes. The word is 0x10000000
exactly; any other word with `OP = 0x1` performs no tick. -/
def Obligations.TickResult : Prop :=
  (∀ s : State,
    let c := if s.pins.trigRaw = true then min (s.cnt + 1) s.params.max else max (s.cnt - 1) 0
    exec .tick s = .next { s with
      cnt := c
      status := if c < s.params.lo then .clear else if c > s.params.hi then .set else s.status
      responses := { inv := false } :: s.responses }) ∧
  (∀ (s : State) (w : Word), w.extractLsb' 28 4 = 0x1 →
    runWord w s = if w = 0x10000000 then exec .tick s
      else .next { s with responses := { inv := true } :: s.responses })

/-- The counter law (R81, which the spec derives from R80 and R21): the counter stays in [0, MAX] and moves by at most
one, up exactly when raw = 1 below MAX, down exactly when raw = 0 above 0. -/
def Obligations.TickCounterLaw : Prop :=
  ∀ s : State, s.cnt ≤ s.params.max → ∃ t, exec .tick s = .next t ∧
    t.cnt ≤ s.params.max ∧
    ((t.cnt : Int) - s.cnt).natAbs ≤ 1 ∧
    (t.cnt = s.cnt + 1 ↔ s.pins.trigRaw = true ∧ s.cnt < s.params.max) ∧
    (t.cnt + 1 = s.cnt ↔ s.pins.trigRaw = false ∧ 0 < s.cnt) ∧
    (t.cnt = s.cnt ↔ (s.pins.trigRaw = true ∧ s.cnt = s.params.max) ∨ (s.pins.trigRaw = false ∧ s.cnt = 0))

/-- The status law as a table over the updated counter and the old status (R82, which the spec derives from R80). -/
def Obligations.TickStatusTable : Prop :=
  ∀ s : State, s.params.Legal → ∃ t, exec .tick s = .next t ∧
    (t.cnt < s.params.lo → s.status = .clear → t.status = .clear) ∧
    (t.cnt < s.params.lo → s.status = .set → t.status = .clear) ∧
    (s.params.lo ≤ t.cnt → t.cnt ≤ s.params.hi → s.status = .clear → t.status = .clear) ∧
    (s.params.lo ≤ t.cnt → t.cnt ≤ s.params.hi → s.status = .set → t.status = .set) ∧
    (s.params.hi < t.cnt → s.status = .clear → t.status = .set) ∧
    (s.params.hi < t.cnt → s.status = .set → t.status = .set)

/-- The two transitions (R83, which the spec derives): CLEAR to SET happens on a TICK exactly when it samples 1 and its
updated counter is HI + 1; SET to CLEAR exactly when it samples 0 and its updated counter is LO - 1. -/
def Obligations.TickTransitions : Prop :=
  ∀ s : State, FilterInv s → ∃ t, exec .tick s = .next t ∧
    (s.status = .clear → (t.status = .set ↔ s.pins.trigRaw = true ∧ t.cnt = s.params.hi + 1)) ∧
    (s.status = .set → (t.status = .clear ↔ s.pins.trigRaw = false ∧ t.cnt + 1 = s.params.lo))

/-- Whole-machine rule (R11, R12, R62, R83, R89): a step that changes the counter or the status is a RESET or the
command word of TICK; no other word, and no waiting loop, moves the filter. -/
def Obligations.OnlyTickAndResetMoveTheFilter : Prop :=
  ∀ s t : State, step s = .next t → (t.cnt ≠ s.cnt ∨ t.status ≠ s.status) →
    (∃ ts, nextTurn s = some (.reset, ts)) ∨
    (∃ a ts p q, nextTurn s = some (.agent a, ts) ∧ nextRequest a s = some (.word 0x10000000 p, q))

/-- R84: the document's own two examples, with a premise on the parameters as the rule has them: the counter reaching
exactly 241 with HIGH_THRESHOLD = 240 flips CLEAR to SET; a counter of 200 with prior status SET remains SET. -/
def Obligations.TickExamples : Prop :=
  (∀ s : State, s.params.Legal → s.params.hi = 240 → s.cnt = 240 → s.status = .clear → s.pins.trigRaw = true →
    ∃ t, exec .tick s = .next t ∧ t.cnt = 241 ∧ t.status = .set) ∧
  (∀ s : State, s.params.Legal → s.params.lo ≤ 200 → s.status = .set →
    ∃ t, exec .tick s = .next t ∧ (t.cnt = 200 → t.status = .set))

/-- R85: RDTRIG answers the status and the counter, and writes nothing. Its word is 0x20000000 exactly. -/
def Obligations.RdtrigResult : Prop :=
  (∀ s : State, exec .rdtrig s =
    .next { s with responses :=
      { inv := false, st := match s.status with | .clear => 0 | .set => 1, cnt := s.cnt } :: s.responses }) ∧
  (∀ w : Word, decode w = .ok .rdtrig ↔ w = 0x20000000)

/-- R36, R38: in either order of a RDTRIG and a TICK the RDTRIG returns one whole snapshot, all old or all new, and
both orders leave the same filter. -/
def Obligations.SnapshotNeverTorn : Prop :=
  ∀ s : State, ∃ t u v : State,
    exec .tick s = .next t ∧
    andThen (exec .rdtrig s) (exec .tick) = .next u ∧
    andThen (exec .tick s) (exec .rdtrig) = .next v ∧
    u.responses = {} :: { st := statusBit s.status, cnt := s.cnt } :: s.responses ∧
    v.responses = { st := statusBit t.status, cnt := t.cnt } :: {} :: s.responses ∧
    u.cnt = t.cnt ∧ u.status = t.status ∧ v.cnt = t.cnt ∧ v.status = t.status

/-- The counter fits its width (R11, R4): CW bits hold every value 0 to MAX, and no smaller width does. -/
def Obligations.CounterFitsItsWidth : Prop :=
  (∀ s : State, FilterInv s → s.cnt < 2 ^ s.params.cw) ∧
  (∀ (p : TrigParams) (n : Nat), p.max < 2 ^ n → p.cw ≤ n)

/-- SET needs ticks (R88, R142; the spec derives both from R81, R82): from a CLEAR state with counter CNT, fewer than
HI + 1 - CNT ticks leave it CLEAR whatever they sample, and exactly that many make it SET just when every one of them
samples 1. From the reset state the figure is HI + 1. -/
def Obligations.SetNeedsTicks : Prop :=
  ∀ (s : State) (raws : List Bool), FilterInv s → s.status = .clear →
    ∃ t, tickAll raws s = .next t ∧
      (raws.length < s.params.hi + 1 - s.cnt → t.status = .clear) ∧
      (raws.length = s.params.hi + 1 - s.cnt → (t.status = .set ↔ ∀ raw ∈ raws, raw = true))

/-- CLEAR needs ticks (R88, which the spec derives): from a SET state with counter CNT, fewer than CNT - LO + 1 ticks
leave it SET, and exactly that many make it CLEAR just when every one of them samples 0. -/
def Obligations.ClearNeedsTicks : Prop :=
  ∀ (s : State) (raws : List Bool), FilterInv s → s.status = .set →
    ∃ t, tickAll raws s = .next t ∧
      (raws.length < s.cnt - s.params.lo + 1 → t.status = .set) ∧
      (raws.length = s.cnt - s.params.lo + 1 → (t.status = .clear ↔ ∀ raw ∈ raws, raw = false))

/-- One iteration of WAITTRIG (R60, R86): a fresh RDTRIG is answered, the filter is not touched, and the request is over
exactly when the status returned is the awaited one; else it stands first in its agent's list again. Which turn the
iteration takes is the model's arrangement (log 3, log 14). -/
def Obligations.WaitTrigIteration : Prop :=
  ∀ (s : State) (a : Agent) (g : TrigStatus) (ts : Feed Turn) (q : Feed Request),
    nextTurn s = some (.agent a, ts) → nextRequest a s = some (.waitTrig g, q) →
    ∃ t, step s = .next t ∧ t.cnt = s.cnt ∧ t.status = s.status ∧ t.params = s.params ∧ t.pins = s.pins ∧
      t.schedule = ts ∧ (∀ b, b ≠ a → queueOf b t = queueOf b s) ∧
      t.responses = { st := statusBit s.status, cnt := s.cnt } :: s.responses ∧
      (s.status = g → queueOf a t = q) ∧
      (s.status ≠ g → nextRequest a t = some (.waitTrig g, q))

/-- A WAITTRIG CLEAR ends under R86's example premise: once the tick agent has been given at least MAX - LO + 1 ticks
in a row that sample 0, the host's next turn leaves the loop. That the turns come so is the premise here (the model's
arrangement, log 3); `WaitEndsUnderFairness` asks only for fairness. -/
def Obligations.WaitClearEnds : Prop :=
  ∀ (s : State) (n : Nat) (hq : Feed Request),
    FilterInv s → s.params.max - s.params.lo + 1 ≤ n →
    (∀ i, i < n → ∃ p : Pins, p.trigRaw = false ∧ requestAt .tick s i = some (.word 0x10000000 p)) →
    nextRequest .host s = some (.waitTrig .clear, hq) →
    (∀ i, i < n → turnAt s i = some (.agent .tick)) → turnAt s n = some (.agent .host) →
    ∃ t, runSteps (n + 1) s = .next t ∧ t.status = .clear ∧ t.hostQueue = hq ∧
      (∀ i, requestAt .tick t i = requestAt .tick s (n + i)) ∧ (∀ i, turnAt t i = turnAt s (n + 1 + i))

/-- A WAITTRIG ends under fairness (R86, R131, R156): if from here on every item of the tick agent's list is a TICK that
samples the awaited level (asserted for SET, released for CLEAR) and the list never ends, if the tick agent and the
waiting host are not postponed for ever, and, for SET, the platform drives no RESET, then the host comes to a turn at
which the status is the awaited one, and that turn leaves the loop. The list may be any infinite list (log 17). -/
def Obligations.WaitEndsUnderFairness : Prop :=
  ∀ (s : State) (g : TrigStatus) (hq : Feed Request), FilterInv s →
    nextRequest .host s = some (.waitTrig g, hq) →
    (∀ n, ∃ p : Pins, p.trigRaw = (g == .set) ∧ requestAt .tick s n = some (.word 0x10000000 p)) →
    (g = .set → ∀ k, turnAt s k ≠ some .reset) →
    FairFor .tick s → FairFor .host s →
    ∃ k, turnAt s k = some (.agent .host) ∧ (stateAt s k).status = g ∧
      nextRequest .host (stateAt s k) = some (.waitTrig g, hq) ∧ queueOf .host (stateAt s (k + 1)) = hq

/-- A WAITTRIG whose condition never comes true is an infinite execution (R86, R156): if the status is not the awaited
one at any turn of the waiting agent, the request stands first in its list for ever, each of its turns is answered by
one fresh RDTRIG, and, the agent not being postponed for ever, more and more of them. No bound and no time-out. -/
def Obligations.UnmetWaitNeverEnds : Prop :=
  ∀ (s : State) (a : Agent) (g : TrigStatus) (q : Feed Request), nextRequest a s = some (.waitTrig g, q) →
    (∀ k, turnAt s k = some (.agent a) → (stateAt s k).status ≠ g) →
    (∀ k, nextRequest a (stateAt s k) = some (.waitTrig g, q) ∧
      (turnAt s k = some (.agent a) → (stateAt s (k + 1)).responses =
        { st := statusBit (stateAt s k).status, cnt := (stateAt s k).cnt } :: (stateAt s k).responses)) ∧
    (FairFor a s → ∀ n, ∃ k, n ≤ (stateAt s k).responses.length)

/-! ### Sample Format Converter (42_format_converter.md) -/

/-- R100 with R102: CONV8 with a legal divisor recentres, shifts, divides truncating toward zero, and emits two equal
samples with `ST = 0`; it writes nothing else. The other words with `OP = 0x8` are invalid requests. That `ST = 1` is
run, with one sample, is the model's choice where the spec lets a model refuse it (log 11; the spec's decision D8). -/
def Obligations.Conv8Result : Prop :=
  (∀ (d : Div) (b : Byte) (s : State), 1 ≤ d.toNat → d.toNat ≤ 8 →
    let y : Int := Int.tdiv (((b.toNat : Int) - 128) * 256) d.toNat
    exec (.conv8 d false b) s = .next { s with responses :=
      { va := true, vb := true, a := BitVec.ofInt 16 y, b := BitVec.ofInt 16 y } :: s.responses } ∧
    exec (.conv8 d true b) s = .next { s with responses :=
      { va := true, vb := false, a := BitVec.ofInt 16 y, b := 0 } :: s.responses }) ∧
  (∀ (w : Word) (s : State), w.extractLsb' 28 4 = 0x8 →
    runWord w s =
      if w.extractLsb' 17 7 = 0 ∧ w.extractLsb' 8 8 = 0 ∧ 1 ≤ (w.extractLsb' 24 4).toNat ∧
          (w.extractLsb' 24 4).toNat ≤ 8 then
        exec (.conv8 (w.extractLsb' 24 4) (w.getLsbD 16) (w.extractLsb' 0 8)) s
      else .next { s with responses := { inv := true } :: s.responses })

/-- R101 with R102: CONV16 with a legal divisor divides truncating toward zero and emits two equal samples with `ST = 0`.
The other words with `OP = 0x9` are invalid requests. That `ST = 1` is run, with one sample, is the model's choice where
the spec lets a model refuse it (log 11; the spec's decision D8). -/
def Obligations.Conv16Result : Prop :=
  (∀ (d : Div) (x : Sample) (s : State), 1 ≤ d.toNat → d.toNat ≤ 8 →
    let y : Int := Int.tdiv x.toInt d.toNat
    exec (.conv16 d false x) s = .next { s with responses :=
      { va := true, vb := true, a := BitVec.ofInt 16 y, b := BitVec.ofInt 16 y } :: s.responses } ∧
    exec (.conv16 d true x) s = .next { s with responses :=
      { va := true, vb := false, a := BitVec.ofInt 16 y, b := 0 } :: s.responses }) ∧
  (∀ (w : Word) (s : State), w.extractLsb' 28 4 = 0x9 →
    runWord w s =
      if w.extractLsb' 17 7 = 0 ∧ 1 ≤ (w.extractLsb' 24 4).toNat ∧ (w.extractLsb' 24 4).toNat ≤ 8 then
        exec (.conv16 (w.extractLsb' 24 4) (w.getLsbD 16) (w.extractLsb' 0 16)) s
      else .next { s with responses := { inv := true } :: s.responses })

/-- The model's choice for an operation that no word selects (log 15): CONV8 or CONV16 given a divisor outside 1 to 8 is
`invalid()`, as the first line of R100's and R101's pseudocode has it. -/
def Obligations.IllegalDivisorInvalid : Prop :=
  ∀ (d : Div) (st : Bool) (b : Byte) (x : Sample) (s : State), d.toNat = 0 ∨ 8 < d.toNat →
    exec (.conv8 d st b) s = .next { s with responses := { inv := true } :: s.responses } ∧
    exec (.conv16 d st x) s = .next { s with responses := { inv := true } :: s.responses }

/-- R100's corner cases (a), (b), (c), (e), (f) and its example, through the answer of CONV8. -/
def Obligations.Conv8Checkpoints : Prop :=
  ∀ s : State,
    (∀ d : Div, 1 ≤ d.toNat → d.toNat ≤ 8 → ∃ t r, exec (.conv8 d false 128) s = .next t ∧
      lastResponse t = some r ∧ r.a = 0 ∧ r.b = 0) ∧
    (∀ b : Byte, ∃ t r, exec (.conv8 1 false b) s = .next t ∧ lastResponse t = some r ∧
      r.a.toInt = ((b.toNat : Int) - 128) * 256) ∧
    (∃ t r, exec (.conv8 1 false 0) s = .next t ∧ lastResponse t = some r ∧ r.a = 0x8000) ∧
    (∃ t r, exec (.conv8 1 false 255) s = .next t ∧ lastResponse t = some r ∧ r.a = 0x7F00) ∧
    (∃ t r, exec (.conv8 3 false 127) s = .next t ∧ lastResponse t = some r ∧ r.va = true ∧ r.vb = true ∧
      r.a = 0xFFAB ∧ r.b = 0xFFAB)

/-- R104: the quotient and remainder of the block's division at every sign of the dividend, against the floor, and the
laws that follow. -/
def Obligations.TruncatingDivisionLaws : Prop :=
  ∀ (n : Int) (d : Nat), -32768 ≤ n → n ≤ 32767 → 1 ≤ d → d ≤ 8 →
    let q := tdiv n d
    let r := n - q * d
    (0 < n → q = ⌊(n : ℚ) / d⌋ ∧ 0 ≤ q ∧ 0 ≤ r ∧ r < d) ∧
    (n = 0 → q = 0 ∧ r = 0 ∧ q = ⌊(n : ℚ) / d⌋) ∧
    (n < 0 → (d : Int) ∣ n → q * d = n ∧ q < 0 ∧ r = 0 ∧ q = ⌊(n : ℚ) / d⌋) ∧
    (n < 0 → ¬(d : Int) ∣ n → q = -⌊(-n : ℚ) / d⌋ ∧ q ≤ 0 ∧ -(d : Int) < r ∧ r < 0 ∧
      q = ⌊(n : ℚ) / d⌋ + 1) ∧
    tdiv (-n) d = -q ∧ q.natAbs ≤ n.natAbs ∧ (q.natAbs : Int) = ⌊(n.natAbs : ℚ) / d⌋ ∧ tdiv n 1 = n ∧
    (q = 0 ↔ n.natAbs < d)

/-- The range of a conversion (R105, which the spec derives): for every legal operand the answer is the exact quotient,
nothing is lost in 16 bits, and the table of the largest outputs by divisor holds and is reached. With `ST = 1` too,
which the model chooses to run (log 11). -/
def Obligations.ConverterRange : Prop :=
  ∀ row ∈ ([(1, -32768, 32767, -32768, 32512), (2, -16384, 16383, -16384, 16256),
      (3, -10922, 10922, -10922, 10837), (4, -8192, 8191, -8192, 8128), (5, -6553, 6553, -6553, 6502),
      (6, -5461, 5461, -5461, 5418), (7, -4681, 4681, -4681, 4644), (8, -4096, 4095, -4096, 4064)] :
      List (Div × Int × Int × Int × Int)),
    ∀ (st : Bool) (s : State),
      (∀ x : Sample, ∃ t r, exec (.conv16 row.1 st x) s = .next t ∧ lastResponse t = some r ∧
        r.a.toInt = Int.tdiv x.toInt row.1.toNat ∧ r.a.toInt.natAbs ≤ x.toInt.natAbs ∧
        row.2.1 ≤ r.a.toInt ∧ r.a.toInt ≤ row.2.2.1 ∧
        (x = 0x8000 → r.a.toInt = row.2.1) ∧ (x = 0x7FFF → r.a.toInt = row.2.2.1) ∧
        (r.a.toInt = -32768 → x = 0x8000 ∧ row.1 = 1)) ∧
      (∀ b : Byte, ∃ t r, exec (.conv8 row.1 st b) s = .next t ∧ lastResponse t = some r ∧
        r.a.toInt = Int.tdiv (((b.toNat : Int) - 128) * 256) row.1.toNat ∧
        r.a.toInt.natAbs ≤ (((b.toNat : Int) - 128) * 256).natAbs ∧
        row.2.2.2.1 ≤ r.a.toInt ∧ r.a.toInt ≤ row.2.2.2.2 ∧
        (b = 0 → r.a.toInt = row.2.2.2.1) ∧ (b = 255 → r.a.toInt = row.2.2.2.2))

/-- The recentring as a pattern (R106, which the spec derives): the high byte is the element with its top bit inverted,
the low byte is 0, and the signed value of the pattern is `s`. -/
def Obligations.RecentringPattern : Prop :=
  ∀ b : Byte, bits16 (recentre b) = (b ^^^ 0x80#8) ++ 0x00#8 ∧ (bits16 (recentre b)).toInt = recentre b

/-- Silence is preserved (R108, which the spec derives): CONV16 of 0 and CONV8 of 128 answer two zero samples for every
legal divisor. -/
def Obligations.SilencePreserved : Prop :=
  ∀ (d : Div) (s : State), 1 ≤ d.toNat → d.toNat ≤ 8 →
    exec (.conv16 d false 0) s = .next { s with responses := { va := true, vb := true } :: s.responses } ∧
    exec (.conv8 d false 128) s = .next { s with responses := { va := true, vb := true } :: s.responses }

/-- R102, through the consumer's samples of R18: with `ST = 0` a conversion gives two equal samples, both `bits_16(y)`.
With `ST = 1` it gives `bits_16(y)` alone, with `vb = 0` and `b = 0`, the scaling `y` being the same: to run `ST = 1` at
all is the model's choice where the spec lets a model refuse it (log 11; the spec's decision D8). Stated for every legal
divisor and every element. -/
def Obligations.EmittedSamples : Prop :=
  ∀ (n : Int) (i : Bool → Instr) (s : State),
    (∃ (d : Div) (b : Byte), 1 ≤ d.toNat ∧ d.toNat ≤ 8 ∧ i = (fun st => .conv8 d st b) ∧
      n = Int.tdiv (((b.toNat : Int) - 128) * 256) d.toNat) ∨
    (∃ (d : Div) (x : Sample), 1 ≤ d.toNat ∧ d.toNat ≤ 8 ∧ i = (fun st => .conv16 d st x) ∧
      n = Int.tdiv x.toInt d.toNat) →
    ∃ t r t' r', exec (i false) s = .next t ∧ lastResponse t = some r ∧
      exec (i true) s = .next t' ∧ lastResponse t' = some r' ∧
      r.inv = false ∧ r.va = true ∧ r.vb = true ∧ r.a = BitVec.ofInt 16 n ∧ r.b = BitVec.ofInt 16 n ∧
      r.samples = [BitVec.ofInt 16 n, BitVec.ofInt 16 n] ∧
      r'.inv = false ∧ r'.va = true ∧ r'.vb = false ∧ r'.a = BitVec.ofInt 16 n ∧ r'.b = 0 ∧
      r'.samples = [BitVec.ofInt 16 n]

/-- Purity (R110, which the spec derives): a conversion's answer is a function of its operands alone, in any state and
whatever the pins show, and it writes nothing. With `ST = 1` too, which the model chooses to run (log 11). -/
def Obligations.ConverterPurity : Prop :=
  ∀ (d : Div) (st : Bool) (b : Byte) (x : Sample),
    (∃ r, ∀ s : State, exec (.conv8 d st b) s = .next { s with responses := r :: s.responses }) ∧
    (∃ r, ∀ s : State, exec (.conv16 d st x) s = .next { s with responses := r :: s.responses })

/-- R104's odd symmetry at the port: a sample and its mirror image convert to mirror images (the most negative
sample has none). With `ST = 1` too, which the model chooses to run (log 11). -/
def Obligations.MirrorImages : Prop :=
  ∀ (d : Div) (st : Bool) (x : Sample) (s : State), 1 ≤ d.toNat → d.toNat ≤ 8 → x ≠ 0x8000 →
    ∃ t r t' r', exec (.conv16 d st x) s = .next t ∧ lastResponse t = some r ∧
      exec (.conv16 d st (-x)) s = .next t' ∧ lastResponse t' = some r' ∧
      r'.a.toInt = -r.a.toInt ∧ r'.a = -r.a

/-- R101 (e), R147: the converter's quotient by 2, 4 or 8 is not the arithmetic shift: it exceeds it by one exactly for
the negative samples that the divisor does not divide, and equals it for the others. With `ST = 1` too, which the model
chooses to run (log 11). -/
def Obligations.QuotientIsNoShift : Prop :=
  ∀ (k : Nat) (st : Bool) (x : Sample) (s : State), k = 1 ∨ k = 2 ∨ k = 3 →
    ∃ t r, exec (.conv16 (BitVec.ofNat 4 (2 ^ k)) st x) s = .next t ∧ lastResponse t = some r ∧
      r.a.toInt = (x.sshiftRight k).toInt +
        if x.toInt < 0 ∧ ¬((2 : Int) ^ k ∣ x.toInt) then 1 else 0

/-! ### The command port (20_memory.md, 60_exceptions.md, 70_reset_and_hazards.md) -/

/-- The frame of all five operations (R10, R12, R35, R127): parameters, pins, what is still to come and the earlier
answers are unchanged, exactly one answer is added, and every operation but TICK leaves the counter and the status. -/
def Obligations.OperationFrame : Prop :=
  ∀ (i : Instr) (s : State), ∃ t r, exec i s = .next t ∧ SameBoundary s t ∧ t.responses = r :: s.responses ∧
    (i ≠ .tick → t.cnt = s.cnt ∧ t.status = s.status)

/-- A step runs the decoded operation (R14, R38, R54): the word at the head of the list of the agent whose turn it is,
with its pin values presented, the request and the turn taken off. -/
def Obligations.StepRunsDecodedWord : Prop :=
  ∀ (s : State) (a : Agent) (ts : Feed Turn) (w : Word) (p : Pins) (q : Feed Request) (i : Instr),
    nextTurn s = some (.agent a, ts) → nextRequest a s = some (.word w p, q) → decode w = .ok i →
    step s = exec i (setPins p (setQueue a q (setSchedule ts s)))

/-- A step answers an invalid word with `invalid()` (R57, R120): the request and the turn are taken off, its pin values
presented, one answer `inv = 1` is added, and the filter is as it was. -/
def Obligations.StepAnswersInvalidWord : Prop :=
  ∀ (s : State) (a : Agent) (ts : Feed Turn) (w : Word) (p : Pins) (q : Feed Request),
    nextTurn s = some (.agent a, ts) → nextRequest a s = some (.word w p, q) → InvalidWord w →
    let u := setPins p (setQueue a q (setSchedule ts s))
    step s = .next { u with responses := { inv := true } :: s.responses } ∧
      u.cnt = s.cnt ∧ u.status = s.status ∧ u.params = s.params

/-- The model's arrangement for a single word (log 7): the step after `withFetchWord` is the operation the table's word
decodes to, in the state as it was. -/
def Obligations.StepRunsFetchedWord : Prop :=
  ∀ (s : State) (nbits w : Nat) (i : Instr), decodeTableWord nbits w = some i →
    step (s.withFetchWord nbits w) = exec i s

/-- R120, R128: nothing is latched. After an invalid word, the next operation does and answers exactly what it would have
done and answered without it. -/
def Obligations.InvalidWordLeavesNoTrace : Prop :=
  ∀ (w : Word) (p p' : Pins) (i : Instr) (s : State), InvalidWord w →
    ∃ t r, execWith p' i s = .next t ∧ t.responses = r :: s.responses ∧
      andThen (runWord w (setPins p s)) (execWith p' i) =
        .next { t with responses := r :: { inv := true } :: s.responses }

/-- R121, R157: every command word is answered in the same step, with one response, and `inv = 1` exactly for the
invalid requests: no valid operation fails. -/
def Obligations.EveryWordAnswered : Prop :=
  ∀ (w : Word) (s : State), ∃ t r, runWord w s = .next t ∧ t.responses = r :: s.responses ∧
    (r.inv = true ↔ InvalidWord w)

/-- R157, D22: the block is never stuck, faulted or pending: from every state a step gives a next state. -/
def Obligations.StepNeverStops : Prop :=
  ∀ s : State, ∃ t, step s = .next t

/-- Only the pins an operation samples matter to it (R15, R16, R35, R120): TICK reads no option pin, VOLRD does not read
`TRIG_RAW`, RDTRIG, CONV8, CONV16 and an invalid request read no pin. -/
def Obligations.PinsReadOnlyWhereSampled : Prop :=
  ∀ (s : State) (p p' : Pins),
    (p.trigRaw = p'.trigRaw → ∃ t t', execWith p .tick s = .next t ∧ execWith p' .tick s = .next t' ∧
      setPins p' t = t') ∧
    (p.volOpt = p'.volOpt → ∃ t t', execWith p .volrd s = .next t ∧ execWith p' .volrd s = .next t' ∧
      setPins p' t = t') ∧
    (∀ i : Instr, i ≠ .tick → i ≠ .volrd → ∃ t t', execWith p i s = .next t ∧ execWith p' i s = .next t' ∧
      setPins p' t = t') ∧
    (∀ w : Word, InvalidWord w → ∃ t t', runWord w (setPins p s) = .next t ∧
      runWord w (setPins p' s) = .next t' ∧ setPins p' t = t')

/-- What commutes (R39, which the spec derives): VOLRD, CONV8 and CONV16 commute with every operation, each with its own
pin values: the same answers, the same filter, in either order. -/
def Obligations.PureOperationsCommute : Prop :=
  ∀ (i j : Instr) (p q : Pins) (s : State), i ≠ .tick → i ≠ .rdtrig →
    ∃ t u ri rj, andThen (execWith p i s) (execWith q j) = .next t ∧
      andThen (execWith q j s) (execWith p i) = .next u ∧
      t.responses = rj :: ri :: s.responses ∧ u.responses = ri :: rj :: s.responses ∧
      t.cnt = u.cnt ∧ t.status = u.status ∧ t.params = u.params

/-- R39's example that two TICKs do not commute at a bound: from CNT = 0, raw 0 then raw 1 gives 1, raw 1 then raw 0
gives 0. -/
def Obligations.TicksDoNotCommute : Prop :=
  ∀ s : State, s.params.Legal → s.cnt = 0 →
    ∃ t u, tickAll [false, true] s = .next t ∧ tickAll [true, false] s = .next u ∧ t.cnt = 1 ∧ u.cnt = 0

/-- Idempotence (R35, which the spec derives): every operation except TICK, issued again with the same pins, answers
the same and leaves the same filter; TICK does not at CNT = 0 with the trigger asserted. -/
def Obligations.RepeatedOperation : Prop :=
  (∀ (i : Instr) (s : State), i ≠ .tick →
    ∃ t r, exec i s = .next t ∧ t.responses = r :: s.responses ∧
      exec i t = .next { t with responses := r :: r :: s.responses } ∧ t.cnt = s.cnt ∧ t.status = s.status) ∧
  (∀ s : State, s.params.Legal → s.cnt = 0 → s.pins.trigRaw = true →
    ∃ t u, exec .tick s = .next t ∧ exec .tick t = .next u ∧ t.cnt = 1 ∧ u.cnt = 2)

/-- R38, R123: each agent's requests are issued in its own order: a turn takes at most the first item of the finite or
infinite list of the agent whose turn it is, and never touches the other agent's list. -/
def Obligations.AgentsKeepTheirOrder : Prop :=
  ∀ (s t : State) (a : Agent) (ts : Feed Turn), nextTurn s = some (.agent a, ts) → step s = .next t →
    t.schedule = ts ∧ (∀ b, b ≠ a → queueOf b t = queueOf b s) ∧
    ((∀ n, requestAt a t n = requestAt a s n) ∨ (∀ n, requestAt a t n = requestAt a s (n + 1)))

/-- Runs (R14, R156): a run never halts, its k-th step takes the k-th turn, and an agent whose list is infinite keeps it
from ever being over. The tick agent's unknown infinite list is TICK for ever, with the environment's free pin values
(R130; the free values are log 17's). -/
def Obligations.RunsGoOn : Prop :=
  (∀ (s : State) (k : Nat), runSteps k s = .next (stateAt s k) ∧ step (stateAt s k) = .next (stateAt s (k + 1)) ∧
    (nextTurn (stateAt s k)).map Prod.fst = turnAt s k) ∧
  (∀ (s : State) (a : Agent), (∀ n, requestAt a s n ≠ none) →
    ∀ k, Enabled a (stateAt s k) ∧ ¬RunOver (stateAt s k)) ∧
  (∀ (s : State) (key pos : Nat), s.tickQueue = { front := [], rest := .free key pos } →
    ∀ n, requestAt .tick s n = some (.word 0x10000000 (Config.freePins key (pos + n))))

/-- The end of a finite run (R156): when every agent has issued its whole list the run stays over, no response is added,
and the counter and the status stand unless the platform drives RESET. -/
def Obligations.RunOverIsFinal : Prop :=
  ∀ s : State, RunOver s → ∀ k, RunOver (stateAt s k) ∧ (stateAt s k).responses = s.responses ∧
    ((∀ j, j < k → turnAt s j ≠ some .reset) → (stateAt s k).cnt = s.cnt ∧ (stateAt s k).status = s.status)

/-- The pin `TRIG_STATE` always equals the status, coded CLEAR = 0 and SET = 1, and reading it gives what RDTRIG would
return (R12, R17). -/
def Obligations.TriggerPinFollowsStatus : Prop :=
  ∀ s : State, (s.trigState = 1 ↔ s.status = .set) ∧ (s.trigState = 0 ↔ s.status = .clear) ∧
    ∃ t r, exec .rdtrig s = .next t ∧ lastResponse t = some r ∧ r.st = s.trigState

/-- The configuration is written by no step (R10, R62, R141). -/
def Obligations.StepKeepsParameters : Prop :=
  ∀ s t : State, step s = .next t → t.params = s.params

/-- REFILL8 and REFILL16 (R61): issued by the host without interruption, the listing's output stream is the
concatenation of the pairs in order, and the filter is as it was. That the host has the turns in a row is the premise. -/
def Obligations.RefillStream : Prop :=
  ∀ (d : Div) (p : Pins) (s : State) (hq : Feed Request) (ts : Feed Turn), 1 ≤ d.toNat → d.toNat ≤ 8 →
    (∀ bs : List Byte, s.hostQueue = hq.prepend (requestsOf p (refill8 d bs)) →
      s.schedule = ts.prepend (List.replicate bs.length (.agent .host)) →
      ∃ t, runSteps bs.length s = .next t ∧
        t.outputStream = s.outputStream ++ bs.flatMap (fun b =>
          let y := BitVec.ofInt 16 (Int.tdiv (((b.toNat : Int) - 128) * 256) d.toNat)
          [y, y]) ∧
        t.cnt = s.cnt ∧ t.status = s.status ∧ t.hostQueue = hq) ∧
    (∀ xs : List Sample, s.hostQueue = hq.prepend (requestsOf p (refill16 d xs)) →
      s.schedule = ts.prepend (List.replicate xs.length (.agent .host)) →
      ∃ t, runSteps xs.length s = .next t ∧
        t.outputStream = s.outputStream ++ xs.flatMap (fun x =>
          let y := BitVec.ofInt 16 (Int.tdiv x.toInt d.toNat)
          [y, y]) ∧
        t.cnt = s.cnt ∧ t.status = s.status ∧ t.hostQueue = hq)

/-- The host's assembly of 16-bit elements (R33): element `i` is `byte[2i+1] ++ byte[2i]` in little order and
`byte[2i] ++ byte[2i+1]` in big order. -/
def Obligations.ElementByteOrder : Prop :=
  ∀ (bytes : List Byte) (i : Nat) (h : 2 * i + 1 < bytes.length),
    (elementsOfBytes .little bytes)[i]? = some (bytes[2 * i + 1] ++ bytes[2 * i]) ∧
    (elementsOfBytes .big bytes)[i]? = some (bytes[2 * i] ++ bytes[2 * i + 1])

/-! ### Reset and the invariant (10_state.md, 70_reset_and_hazards.md) -/

/-- R21: after RESET the status is CLEAR, the counter is 0 (the spec's own decision D11), and the output pin is 0. -/
def Obligations.ResetValues : Prop :=
  State.reset.status = .clear ∧ State.reset.cnt = 0 ∧ State.reset.trigState = 0

/-- R21, R140, R141: a RESET between two operations sets the counter and the status and changes nothing else but that
the turn is taken. -/
def Obligations.ResetTurn : Prop :=
  ∀ (s : State) (ts : Feed Turn), nextTurn s = some (.reset, ts) →
    step s = .next { s with cnt := 0, status := .clear, schedule := ts }

/-- The model's choice for a block nothing is asked of (log 6): with no turn left the state stands. -/
def Obligations.NoTurnNoChange : Prop :=
  ∀ s : State, nextTurn s = none → step s = .next s

/-- The state after reset meets the invariant, whatever the parameters are (R4, R21, R87). -/
def Obligations.ResetMeetsInv : Prop :=
  FilterInv State.reset

/-- R81, R87: from every state that meets the invariant (legal parameters, counter in [0, MAX], hysteresis), a step
gives a state that meets it, whatever the turn, the word, its operands and the pins are. -/
def Obligations.StepKeepsInv : Prop :=
  ∀ s t : State, FilterInv s → step s = .next t → FilterInv t

/-- R81, R87: in every state reachable from RESET by any finite or infinite lists of operations of the two agents, in
any interleaving, with any pin values and further RESETs anywhere, SET implies CNT >= LO, CLEAR implies CNT <= HI, and CNT <= MAX. -/
def Obligations.HysteresisAlongEveryRun : Prop :=
  ∀ (k : Nat) (tq hq : Feed Request) (ts : Feed Turn), ∃ t, runSteps k (loaded tq hq ts) = .next t ∧
    (t.status = .set → t.params.lo ≤ t.cnt) ∧
    (t.status = .clear → t.cnt ≤ t.params.hi) ∧
    t.cnt ≤ t.params.max ∧ t.params = Config.trig
end

