-- ==== Sys2Proof/Laws/Decode.lean ====
section
/-!
SUPPORT. The fields of a word and the word of its fields.
-/

namespace Sys2Proof

theorem splitWord_joinFields (f : CmdFields) : splitWord (joinFields f) = f := by
  obtain ⟨op, div, rsv, st, data⟩ := f
  simp only [splitWord, joinFields, CmdFields.mk.injEq]
  refine ⟨?_, ?_, ?_, ?_, ?_⟩ <;> ext i hi <;>
    simp only [BitVec.getElem_extractLsb', BitVec.getLsbD_append] <;> grind

theorem joinFields_splitWord (w : Word) : joinFields (splitWord w) = w := by
  simp only [splitWord, joinFields]
  rw [BitVec.extractLsb'_append_extractLsb'_eq_extractLsb' (by rfl),
    BitVec.extractLsb'_append_extractLsb'_eq_extractLsb' (by rfl),
    BitVec.extractLsb'_append_extractLsb'_eq_extractLsb' (by rfl),
    BitVec.extractLsb'_append_extractLsb'_eq_extractLsb' (by rfl)]
  exact BitVec.extractLsb'_eq_self

@[simp] theorem splitWord_encode (i : Instr) : splitWord (encode i) = fieldsOf i := splitWord_joinFields _

@[simp] theorem stereoOfBit_bitOfStereo (s : Bool) : stereoOfBit (bitOfStereo s) = s := by cases s <;> rfl

theorem bitOfStereo_stereoOfBit (b : BitVec 1) : bitOfStereo (stereoOfBit b) = b := by
  revert b; decide

/-- What the decoder can answer, operation by operation. -/
theorem decodeFields_ok {f : CmdFields} {i : Instr} (h : decodeFields f = .ok i) :
    f.rsv = 0 ∧
      ((f.op = 0x1 ∧ f.div = 0 ∧ f.st = 0 ∧ f.data = 0 ∧ i = .tick) ∨
        (f.op = 0x2 ∧ f.div = 0 ∧ f.st = 0 ∧ f.data = 0 ∧ i = .rdtrig) ∨
        (f.op = 0x3 ∧ f.div = 0 ∧ f.st = 0 ∧ f.data = 0 ∧ i = .volrd) ∨
        (f.op = 0x8 ∧ f.div ≠ 0 ∧ f.div.toNat ≤ 8 ∧ f.data.extractLsb' 8 8 = 0 ∧
          i = .conv8 f.div (stereoOfBit f.st) (f.data.extractLsb' 0 8)) ∨
        (f.op = 0x9 ∧ f.div ≠ 0 ∧ f.div.toNat ≤ 8 ∧ i = .conv16 f.div (stereoOfBit f.st) f.data)) := by
  unfold decodeFields decodePlain decodeConv8 decodeConv16 at h
  split_ifs at h <;> simp_all

end Sys2Proof
end

