-- ==== Sys2Proof/Laws/Feed.lean ====
section
/-!
SUPPORT. Laws of the finite and infinite lists: taking, putting in front, and the item at a place.
-/

namespace Sys2Proof.Machine

variable {α : Type} (free : Nat → Nat → α)

@[simp] theorem feed_next_front (x : α) (xs : List α) (r : Rest α) :
    Feed.next free { front := x :: xs, rest := r } = some (x, { front := xs, rest := r }) := rfl

@[simp] theorem feed_next_finite_nil : (Feed.finite ([] : List α)).next free = none := rfl

@[simp] theorem feed_next_free (key pos : Nat) : Feed.next free { front := [], rest := .free key pos } =
    some (free key pos, { front := [], rest := .free key (pos + 1) }) := rfl

/-- What is put in front comes first, and the list is as before after it. -/
@[simp] theorem feed_next_push (x : α) (f : Feed α) : (f.push x).next free = some (x, f) := rfl

@[simp] theorem feed_prepend_nil (f : Feed α) : f.prepend [] = f := rfl

@[simp] theorem feed_next_prepend_cons (x : α) (xs : List α) (f : Feed α) :
    (f.prepend (x :: xs)).next free = some (x, f.prepend xs) := rfl

theorem feed_item_zero (f : Feed α) : f.item free 0 = (f.next free).map Prod.fst := rfl

/-- Taking the first item moves every other item one place down. -/
theorem feed_item_succ {f g : Feed α} {x : α} (h : f.next free = some (x, g)) (n : Nat) :
    f.item free (n + 1) = g.item free n := by
  simp only [Feed.item, h]

/-- A list with no first item has no item. -/
theorem feed_item_of_end {f : Feed α} (h : f.next free = none) (n : Nat) : f.item free n = none := by
  cases n <;> simp only [Feed.item, h, Option.map_none]

/-- The unknown infinite list never ends, and its items are the free values from its place on. -/
theorem feed_item_free (key pos n : Nat) :
    Feed.item free n { front := [], rest := .free key pos } = some (free key (pos + n)) := by
  induction n generalizing pos with
  | zero => rfl
  | succ n ih => rw [feed_item_succ free (feed_next_free free key pos), ih]; congr 2; omega

/-- A loop of one item is that item at every place. -/
theorem feed_item_forever_one (x : α) (n : Nat) : (Feed.forever [x]).item free n = some x := by
  have h : ∀ n, Feed.item free n { front := [], rest := .again [x] } = some x := fun n => by
    induction n with
    | zero => rfl
    | succ n ih => exact ih
  exact h n

/-- A loop of two items alternates. -/
theorem feed_item_forever_two (x y : α) (n : Nat) :
    (Feed.forever [x, y]).item free (2 * n) = some x ∧ (Feed.forever [x, y]).item free (2 * n + 1) = some y := by
  have h : ∀ n, Feed.item free (2 * n) { front := [], rest := .again [x, y] } = some x ∧
      Feed.item free (2 * n + 1) { front := [], rest := .again [x, y] } = some y := fun n => by
    induction n with
    | zero => exact ⟨rfl, rfl⟩
    | succ n ih => exact ih
  exact h n

end Sys2Proof.Machine
end

