-- ==== Sys2Proof/Laws/State.lean ====
section
/-!
SUPPORT. What each update of the state does to each field.
-/

namespace Sys2Proof.Machine

@[simp] theorem setTrigger_cnt (c st) (s : State) : (setTrigger c st s).cnt = c := rfl
@[simp] theorem setTrigger_status (c st) (s : State) : (setTrigger c st s).status = st := rfl
@[simp] theorem setTrigger_params (c st) (s : State) : (setTrigger c st s).params = s.params := rfl
@[simp] theorem setTrigger_pins (c st) (s : State) : (setTrigger c st s).pins = s.pins := rfl
@[simp] theorem setTrigger_responses (c st) (s : State) : (setTrigger c st s).responses = s.responses := rfl
@[simp] theorem setTrigger_tickQueue (c st) (s : State) : (setTrigger c st s).tickQueue = s.tickQueue := rfl
@[simp] theorem setTrigger_hostQueue (c st) (s : State) : (setTrigger c st s).hostQueue = s.hostQueue := rfl
@[simp] theorem queueOf_setTrigger (a c st) (s : State) : queueOf a (setTrigger c st s) = queueOf a s := by
  cases a <;> rfl
@[simp] theorem setTrigger_schedule (c st) (s : State) : (setTrigger c st s).schedule = s.schedule := rfl

@[simp] theorem respond_cnt (r) (s : State) : (respond r s).cnt = s.cnt := rfl
@[simp] theorem respond_status (r) (s : State) : (respond r s).status = s.status := rfl
@[simp] theorem respond_params (r) (s : State) : (respond r s).params = s.params := rfl
@[simp] theorem respond_pins (r) (s : State) : (respond r s).pins = s.pins := rfl
@[simp] theorem respond_responses (r) (s : State) : (respond r s).responses = r :: s.responses := rfl
@[simp] theorem respond_tickQueue (r) (s : State) : (respond r s).tickQueue = s.tickQueue := rfl
@[simp] theorem respond_hostQueue (r) (s : State) : (respond r s).hostQueue = s.hostQueue := rfl
@[simp] theorem queueOf_respond (a r) (s : State) : queueOf a (respond r s) = queueOf a s := by cases a <;> rfl
@[simp] theorem respond_schedule (r) (s : State) : (respond r s).schedule = s.schedule := rfl

@[simp] theorem setPins_cnt (p) (s : State) : (setPins p s).cnt = s.cnt := rfl
@[simp] theorem setPins_status (p) (s : State) : (setPins p s).status = s.status := rfl
@[simp] theorem setPins_params (p) (s : State) : (setPins p s).params = s.params := rfl
@[simp] theorem setPins_pins (p) (s : State) : (setPins p s).pins = p := rfl
@[simp] theorem setPins_responses (p) (s : State) : (setPins p s).responses = s.responses := rfl
@[simp] theorem setPins_tickQueue (p) (s : State) : (setPins p s).tickQueue = s.tickQueue := rfl
@[simp] theorem setPins_hostQueue (p) (s : State) : (setPins p s).hostQueue = s.hostQueue := rfl
@[simp] theorem queueOf_setPins (a p) (s : State) : queueOf a (setPins p s) = queueOf a s := by cases a <;> rfl
@[simp] theorem setPins_schedule (p) (s : State) : (setPins p s).schedule = s.schedule := rfl

@[simp] theorem setSchedule_cnt (ts) (s : State) : (setSchedule ts s).cnt = s.cnt := rfl
@[simp] theorem setSchedule_status (ts) (s : State) : (setSchedule ts s).status = s.status := rfl
@[simp] theorem setSchedule_params (ts) (s : State) : (setSchedule ts s).params = s.params := rfl
@[simp] theorem setSchedule_pins (ts) (s : State) : (setSchedule ts s).pins = s.pins := rfl
@[simp] theorem setSchedule_responses (ts) (s : State) : (setSchedule ts s).responses = s.responses := rfl
@[simp] theorem setSchedule_tickQueue (ts) (s : State) : (setSchedule ts s).tickQueue = s.tickQueue := rfl
@[simp] theorem setSchedule_hostQueue (ts) (s : State) : (setSchedule ts s).hostQueue = s.hostQueue := rfl
@[simp] theorem setSchedule_schedule (ts) (s : State) : (setSchedule ts s).schedule = ts := rfl
@[simp] theorem queueOf_setSchedule (a ts) (s : State) : queueOf a (setSchedule ts s) = queueOf a s := by
  cases a <;> rfl

@[simp] theorem setQueue_cnt (a q) (s : State) : (setQueue a q s).cnt = s.cnt := by cases a <;> rfl
@[simp] theorem setQueue_status (a q) (s : State) : (setQueue a q s).status = s.status := by cases a <;> rfl
@[simp] theorem setQueue_params (a q) (s : State) : (setQueue a q s).params = s.params := by cases a <;> rfl
@[simp] theorem setQueue_pins (a q) (s : State) : (setQueue a q s).pins = s.pins := by cases a <;> rfl
@[simp] theorem setQueue_responses (a q) (s : State) : (setQueue a q s).responses = s.responses := by
  cases a <;> rfl
@[simp] theorem setQueue_schedule (a q) (s : State) : (setQueue a q s).schedule = s.schedule := by
  cases a <;> rfl
@[simp] theorem setQueue_tick_tickQueue (q) (s : State) : (setQueue .tick q s).tickQueue = q := rfl
@[simp] theorem setQueue_tick_hostQueue (q) (s : State) : (setQueue .tick q s).hostQueue = s.hostQueue := rfl
@[simp] theorem setQueue_host_hostQueue (q) (s : State) : (setQueue .host q s).hostQueue = q := rfl
@[simp] theorem setQueue_host_tickQueue (q) (s : State) : (setQueue .host q s).tickQueue = s.tickQueue := rfl
@[simp] theorem queueOf_setQueue_self (a q) (s : State) : queueOf a (setQueue a q s) = q := by
  cases a <;> rfl
theorem queueOf_setQueue_other {a b : Agent} (h : b ≠ a) (q) (s : State) :
    queueOf b (setQueue a q s) = queueOf b s := by
  cases a <;> cases b <;> first | rfl | exact absurd rfl h

@[simp] theorem nextRequest_setSchedule (a ts) (s : State) :
    nextRequest a (setSchedule ts s) = nextRequest a s := by cases a <;> rfl
@[simp] theorem nextTurn_setSchedule_push (x ts) (s : State) :
    nextTurn (setSchedule (ts.push x) s) = some (x, ts) := rfl
@[simp] theorem nextRequest_setQueue_push (a x q) (s : State) :
    nextRequest a (setQueue a (q.push x) s) = some (x, q) := by cases a <;> rfl

@[simp] theorem invalid_cnt (s : State) : (invalid s).cnt = s.cnt := rfl
@[simp] theorem invalid_status (s : State) : (invalid s).status = s.status := rfl
@[simp] theorem invalid_params (s : State) : (invalid s).params = s.params := rfl
@[simp] theorem invalid_pins (s : State) : (invalid s).pins = s.pins := rfl
@[simp] theorem invalid_responses (s : State) : (invalid s).responses = invalidResponse :: s.responses := rfl
@[simp] theorem invalid_tickQueue (s : State) : (invalid s).tickQueue = s.tickQueue := rfl
@[simp] theorem invalid_hostQueue (s : State) : (invalid s).hostQueue = s.hostQueue := rfl
@[simp] theorem queueOf_invalid (a) (s : State) : queueOf a (invalid s) = queueOf a s := by cases a <;> rfl
@[simp] theorem invalid_schedule (s : State) : (invalid s).schedule = s.schedule := rfl

@[simp] theorem applyReset_cnt (s : State) : (applyReset s).cnt = 0 := rfl
@[simp] theorem applyReset_status (s : State) : (applyReset s).status = .clear := rfl
@[simp] theorem applyReset_params (s : State) : (applyReset s).params = s.params := rfl
@[simp] theorem applyReset_pins (s : State) : (applyReset s).pins = s.pins := rfl
@[simp] theorem applyReset_responses (s : State) : (applyReset s).responses = s.responses := rfl
@[simp] theorem applyReset_tickQueue (s : State) : (applyReset s).tickQueue = s.tickQueue := rfl
@[simp] theorem applyReset_hostQueue (s : State) : (applyReset s).hostQueue = s.hostQueue := rfl
@[simp] theorem queueOf_applyReset (a) (s : State) : queueOf a (applyReset s) = queueOf a s := by cases a <;> rfl
@[simp] theorem applyReset_schedule (s : State) : (applyReset s).schedule = s.schedule := rfl

theorem goOnWaiting_cases (a g) (s : State) :
    goOnWaiting a g s = s ∨ goOnWaiting a g s = setQueue a ((queueOf a s).push (.waitTrig g)) s := by
  unfold goOnWaiting; split
  · exact .inl rfl
  · exact .inr rfl
theorem queueOf_goOnWaiting (a b g) (s : State) :
    queueOf b (goOnWaiting a g s) = queueOf b s ∨
      b = a ∧ queueOf b (goOnWaiting a g s) = (queueOf b s).push (.waitTrig g) := by
  rcases goOnWaiting_cases a g s with h | h <;> rw [h]
  · exact .inl rfl
  · by_cases e : b = a
    · subst e; exact .inr ⟨rfl, queueOf_setQueue_self _ _ _⟩
    · exact .inl (queueOf_setQueue_other e _ _)
@[simp] theorem goOnWaiting_cnt (a g) (s : State) : (goOnWaiting a g s).cnt = s.cnt := by
  rcases goOnWaiting_cases a g s with h | h <;> simp [h]
@[simp] theorem goOnWaiting_status (a g) (s : State) : (goOnWaiting a g s).status = s.status := by
  rcases goOnWaiting_cases a g s with h | h <;> simp [h]
@[simp] theorem goOnWaiting_params (a g) (s : State) : (goOnWaiting a g s).params = s.params := by
  rcases goOnWaiting_cases a g s with h | h <;> simp [h]
@[simp] theorem goOnWaiting_pins (a g) (s : State) : (goOnWaiting a g s).pins = s.pins := by
  rcases goOnWaiting_cases a g s with h | h <;> simp [h]
@[simp] theorem goOnWaiting_responses (a g) (s : State) : (goOnWaiting a g s).responses = s.responses := by
  rcases goOnWaiting_cases a g s with h | h <;> simp [h]
@[simp] theorem goOnWaiting_schedule (a g) (s : State) : (goOnWaiting a g s).schedule = s.schedule := by
  rcases goOnWaiting_cases a g s with h | h <;> simp [h]

/-- The parameters of the machine satisfy R4's constraint, whatever they are. -/
theorem config_trig_legal : Config.trig.Legal := by
  simp only [TrigParams.Legal, Config.trig]; omega

end Sys2Proof.Machine
end

