-- ==== Sys2Proof/Laws/Ops.lean ====
section
/-!
SUPPORT. What each shared operation can do, said once.
-/

namespace Sys2Proof.Machine

/-- The spec's truncating division is Lean's. -/
theorem tdiv_eq_int_tdiv (n : Int) (d : Nat) : tdiv n d = Int.tdiv n d := by
  unfold tdiv
  split
  · next h => rw [Int.tdiv_eq_ediv_of_nonneg h]
  · next h => rw [← Int.tdiv_eq_ediv_of_nonneg (by omega), Int.neg_tdiv, neg_neg]

/-- The range of a quotient: it does not leave the magnitude of the dividend. -/
theorem tdiv_bounds (n : Int) (d : Nat) : -|n| ≤ tdiv n d ∧ tdiv n d ≤ |n| := by
  have h : |tdiv n d| ≤ |n| := by
    rw [tdiv_eq_int_tdiv, ← Int.natCast_natAbs, ← Int.natCast_natAbs, Int.natAbs_tdiv]
    exact_mod_cast Nat.div_le_self _ _
  exact abs_le.mp h

/-- `bits_16` loses nothing on the 16-bit signed range. -/
theorem bits16_toInt {y : Int} (h₁ : -32768 ≤ y) (h₂ : y ≤ 32767) : (bits16 y).toInt = y := by
  simp only [bits16, BitVec.toInt_ofInt]
  exact Int.bmod_eq_of_le (by norm_num; omega) (by norm_num; omega)

theorem signed16_range (x : Sample) : -32768 ≤ signed16 x ∧ signed16 x ≤ 32767 := by
  have h₁ := BitVec.le_toInt x
  have h₂ := BitVec.toInt_lt (x := x)
  norm_num at h₁ h₂
  exact ⟨h₁, by unfold signed16; omega⟩

theorem recentre_range (b : Byte) : -32768 ≤ recentre b ∧ recentre b ≤ 32512 := by
  have := b.isLt
  unfold recentre; omega

theorem divisorOf_of_legal {d : Div} (h₁ : 1 ≤ d.toNat) (h₂ : d.toNat ≤ 8) : divisorOf d = some d.toNat :=
  if_pos ⟨h₁, h₂⟩

theorem divisorOf_of_illegal {d : Div} (h : d.toNat = 0 ∨ 8 < d.toNat) : divisorOf d = none :=
  if_neg (by omega)

/-- A conversion with a legal divisor emits the quotient. -/
theorem convert_of_legal {d : Div} (h₁ : 1 ≤ d.toNat) (h₂ : d.toNat ≤ 8) (n stereo) (s : State) :
    convert n d stereo s = respond (emitResponse stereo (tdiv n d.toNat)) s := by
  simp only [convert, divisorOf_of_legal h₁ h₂]

/-- A conversion with an illegal divisor is an invalid request. -/
theorem convert_of_illegal {d : Div} (h : d.toNat = 0 ∨ 8 < d.toNat) (n stereo) (s : State) :
    convert n d stereo s = invalid s := by
  simp only [convert, divisorOf_of_illegal h]

/-- Everything a conversion can do: it answers, and what it answers does not depend on the state. -/
theorem convert_responds (n d stereo) : ∃ r, ∀ s : State, convert n d stereo s = respond r s := by
  unfold convert
  cases divisorOf d with
  | none => exact ⟨_, fun _ => rfl⟩
  | some k => exact ⟨_, fun _ => rfl⟩

/-- Everything an operation can do: TICK moves the pair and answers; any other operation only answers. -/
theorem exec_cases (i : Instr) (s : State) :
    (i = .tick ∧ exec i s = .next (respond {} (setTrigger (nextCount s.params s.pins.trigRaw s.cnt)
        (nextStatus s.params (nextCount s.params s.pins.trigRaw s.cnt) s.status) s))) ∨
      i ≠ .tick ∧ ∃ r, exec i s = .next (respond r s) := by
  cases i with
  | tick => exact .inl ⟨rfl, rfl⟩
  | rdtrig => exact .inr ⟨nofun, _, rfl⟩
  | volrd => exact .inr ⟨nofun, _, rfl⟩
  | conv8 d st b =>
    obtain ⟨r, hr⟩ := convert_responds (recentre b) d st
    exact .inr ⟨nofun, r, congrArg Host.Outcome.next (hr s)⟩
  | conv16 d st x =>
    obtain ⟨r, hr⟩ := convert_responds (signed16 x) d st
    exact .inr ⟨nofun, r, congrArg Host.Outcome.next (hr s)⟩

/-- A tick keeps the counter within its bound. -/
theorem nextCount_le {p : TrigParams} {raw : Bool} {c : Nat} (h : c ≤ p.max) : nextCount p raw c ≤ p.max := by
  cases raw <;> simp only [nextCount] <;> omega

/-- The three outcomes of the status rule. -/
theorem nextStatus_cases (p : TrigParams) (c : Nat) (old : TrigStatus) :
    (c < p.lo ∧ nextStatus p c old = .clear) ∨
      (p.lo ≤ c ∧ p.hi < c ∧ nextStatus p c old = .set) ∨
      (p.lo ≤ c ∧ c ≤ p.hi ∧ nextStatus p c old = old) := by
  unfold nextStatus
  split
  · exact .inl ⟨‹_›, rfl⟩
  · split
    · exact .inr (.inl ⟨by omega, by omega, rfl⟩)
    · exact .inr (.inr ⟨by omega, by omega, rfl⟩)

end Sys2Proof.Machine
end

