-- ==== Sys2Proof/Laws/PerInstr.lean ====
section
/-!
SUPPORT. A statement for every operation: its word stands in its own row of the opcode map
(30_encoding.md R54, R59).
-/

namespace Sys2Proof.Laws.EncodedRow

/-- The word of a well-formed operation selects that operation's row of R54. -/
def Statement (i : Instr) : Prop := i.wellFormed = true → selectsRow (encode i) (rowOf i) = true

theorem tick : Statement .tick := fun _ => by decide

theorem rdtrig : Statement .rdtrig := fun _ => by decide

theorem volrd : Statement .volrd := fun _ => by decide

theorem conv8 (d : Div) (stereo : Bool) (b : Byte) : Statement (.conv8 d stereo b) := fun h => by
  have hd : (encode (.conv8 d stereo b)).extractLsb' 24 4 = d :=
    congrArg CmdFields.div (splitWord_encode (.conv8 d stereo b))
  have hm : encode (.conv8 d stereo b) &&& 0xF0FEFF00 = 0x80000000 := by
    ext i hi
    simp only [encode, joinFields, fieldsOf, bitOfStereo, BitVec.getElem_and, BitVec.getElem_append]
    interval_cases i <;> cases stereo <;> simp
  simp only [selectsRow, rowOf, hm, hd]
  simpa [Instr.wellFormed] using h

theorem conv16 (d : Div) (stereo : Bool) (x : Sample) : Statement (.conv16 d stereo x) := fun h => by
  have hd : (encode (.conv16 d stereo x)).extractLsb' 24 4 = d :=
    congrArg CmdFields.div (splitWord_encode (.conv16 d stereo x))
  have hm : encode (.conv16 d stereo x) &&& 0xF0FE0000 = 0x90000000 := by
    ext i hi
    simp only [encode, joinFields, fieldsOf, bitOfStereo, BitVec.getElem_and, BitVec.getElem_append]
    interval_cases i <;> cases stereo <;> simp
  simp only [selectsRow, rowOf, hm, hd]
  simpa [Instr.wellFormed] using h

end Sys2Proof.Laws.EncodedRow
end

