-- ==== Sys2Proof/Laws/Step.lean ====
section
/-!
SUPPORT. What a turn can bring, what a word can do, and what a step can do, said once each.
-/

namespace Sys2Proof.Machine

/-- Taking a turn leaves the filter, the parameters and the answers as they are. -/
theorem takeTurn_keeps (s : State) :
    (takeTurn s).state.cnt = s.cnt ∧ (takeTurn s).state.status = s.status ∧
      (takeTurn s).state.params = s.params ∧ (takeTurn s).state.responses = s.responses := by
  unfold takeTurn
  match nextTurn s with
  | none => exact ⟨rfl, rfl, rfl, rfl⟩
  | some (.reset, ts) => exact ⟨rfl, rfl, rfl, rfl⟩
  | some (.agent a, ts) =>
    simp only [takeRequest, nextRequest_setSchedule]
    match nextRequest a s with
    | none => exact ⟨rfl, rfl, rfl, rfl⟩
    | some (.word w p, q) => simp [Arrival.state]
    | some (.waitTrig g, q) => simp [Arrival.state]

/-- What an agent's turn brings when its next item is a command word. -/
theorem takeTurn_word {s : State} {a ts w p q} (hs : nextTurn s = some (.agent a, ts))
    (hq : nextRequest a s = some (.word w p, q)) :
    takeTurn s = .word w (setPins p (setQueue a q (setSchedule ts s))) := by
  simp only [takeTurn, hs, takeRequest, nextRequest_setSchedule, hq]

/-- What an agent's turn brings when its next item is WAITTRIG. -/
theorem takeTurn_wait {s : State} {a ts g q} (hs : nextTurn s = some (.agent a, ts))
    (hq : nextRequest a s = some (.waitTrig g, q)) :
    takeTurn s = .wait a g (setQueue a q (setSchedule ts s)) := by
  simp only [takeTurn, hs, takeRequest, nextRequest_setSchedule, hq]

/-- What a turn of the platform brings. -/
theorem takeTurn_reset {s : State} {ts} (hs : nextTurn s = some (.reset, ts)) :
    takeTurn s = .reset (setSchedule ts s) := by
  simp only [takeTurn, hs]

/-- What a turn of an agent with nothing left to issue brings. -/
theorem takeTurn_spent {s : State} {a ts} (hs : nextTurn s = some (.agent a, ts)) (hq : nextRequest a s = none) :
    takeTurn s = .idle (setSchedule ts s) := by
  simp only [takeTurn, hs, takeRequest, nextRequest_setSchedule, hq]

/-- No turn is left. -/
theorem takeTurn_none {s : State} (hs : nextTurn s = none) : takeTurn s = .idle s := by
  simp only [takeTurn, hs]

/-- Everything a command word can do: a TICK moves the pair and is answered; any other word is only answered. -/
theorem runWord_cases (w : Word) (s : State) :
    (decode w = .ok .tick ∧ runWord w s = .next (respond {} (setTrigger (nextCount s.params s.pins.trigRaw s.cnt)
        (nextStatus s.params (nextCount s.params s.pins.trigRaw s.cnt) s.status) s))) ∨
      decode w ≠ .ok .tick ∧ ∃ r, runWord w s = .next (respond r s) := by
  unfold runWord
  cases decode w with
  | error e => exact .inr ⟨nofun, _, rfl⟩
  | ok i =>
    obtain ⟨rfl, h⟩ | ⟨hi, h⟩ := exec_cases i s
    · exact .inl ⟨rfl, h⟩
    · exact .inr ⟨fun e => hi (Except.ok.inj e), h⟩

theorem decode_rdtrigWord : decode rdtrigWord = .ok .rdtrig := by decide

/-- One iteration of WAITTRIG at the port. -/
theorem serve_wait (a g) (s : State) :
    serve (.wait a g s) =
      .next (goOnWaiting a g (respond { st := statusBit s.status, cnt := s.cnt } s)) := by
  simp only [serve, runWord, decode_rdtrigWord]; rfl

/-- Everything a step can do to the filter: leave it, reset it, or tick it. -/
theorem step_cases (s : State) :
    ∃ t, step s = .next t ∧ t.params = s.params ∧
      ((t.cnt = s.cnt ∧ t.status = s.status) ∨
        ((∃ u, takeTurn s = .reset u) ∧ t.cnt = 0 ∧ t.status = .clear) ∨
        (∃ w u, takeTurn s = .word w u ∧ decode w = .ok .tick ∧
          t.cnt = nextCount s.params u.pins.trigRaw s.cnt ∧
          t.status = nextStatus s.params t.cnt s.status)) := by
  have hk := takeTurn_keeps s
  unfold step
  cases ht : takeTurn s with
  | idle u =>
    rw [ht] at hk
    exact ⟨u, rfl, hk.2.2.1, .inl ⟨hk.1, hk.2.1⟩⟩
  | reset u =>
    rw [ht] at hk
    exact ⟨_, rfl, hk.2.2.1, .inr (.inl ⟨⟨u, rfl⟩, rfl, rfl⟩)⟩
  | wait a g u =>
    rw [ht] at hk
    refine ⟨_, serve_wait a g u, ?_, .inl ⟨?_, ?_⟩⟩
    · simpa [Arrival.state] using hk.2.2.1
    · simpa [Arrival.state] using hk.1
    · simpa [Arrival.state] using hk.2.1
  | word w u =>
    rw [ht] at hk
    obtain ⟨hc, hst, hp, -⟩ := hk
    simp only [Arrival.state] at hc hst hp
    obtain ⟨hd, h⟩ | ⟨-, r, h⟩ := runWord_cases w u
    · refine ⟨_, h, hp, .inr (.inr ⟨w, u, rfl, hd, ?_, ?_⟩)⟩ <;> simp [hc, hst, hp]
    · exact ⟨_, h, hp, .inl ⟨hc, hst⟩⟩

/-- One step of a run of any machine behind the host's interface. -/
theorem core_run_succ (M : Host.Core) (k : Nat) (s : M.State) :
    M.run (k + 1) s = (match M.step s with
      | .next t => M.run k t
      | .fault r => .fault r
      | .refused r => .refused r) := rfl

/-- The host's run is the run of the statements. -/
theorem core_run_eq_runSteps (k : Nat) (s : State) : core.run k s = runSteps k s := by
  induction k generalizing s with
  | zero => rfl
  | succ k ih =>
    have e : core.step s = step s := rfl
    rw [core_run_succ core k s, runSteps, e]
    cases step s with
    | next t => exact ih t
    | fault r => rfl
    | refused r => rfl

/-- TICKs of any samples end in a next state. -/
theorem tickAll_answers (raws : List Bool) (s : State) : ∃ t, tickAll raws s = .next t := by
  induction raws generalizing s with
  | nil => exact ⟨s, rfl⟩
  | cons raw raws ih => exact ih _

end Sys2Proof.Machine
end

