-- ==== Sys2Proof/Laws/Run.lean ====
section
/-!
SUPPORT. What a step does to the lists, and how a run and its states fit together, said once each.
-/

namespace Sys2Proof.Machine

/-- An operation leaves the lists. -/
theorem exec_lists {i : Instr} {s t : State} (h : exec i s = .next t) :
    t.schedule = s.schedule ∧ ∀ b, queueOf b t = queueOf b s := by
  obtain ⟨-, e⟩ | ⟨-, r, e⟩ := exec_cases i s <;> cases e.symm.trans h <;>
    exact ⟨rfl, fun b => by simp⟩

/-- A command word leaves the lists. -/
theorem runWord_lists {w : Word} {s t : State} (h : runWord w s = .next t) :
    t.schedule = s.schedule ∧ ∀ b, queueOf b t = queueOf b s := by
  unfold runWord at h
  cases hd : decode w with
  | ok i => rw [hd] at h; exact exec_lists h
  | error e => rw [hd] at h; cases h; exact ⟨rfl, fun b => queueOf_invalid b s⟩

/-- A step takes the turn it finds, and with none left the state stands. -/
theorem step_schedule (s : State) : ∃ t, step s = .next t ∧
    ((nextTurn s = none ∧ t = s) ∨ ∃ x, nextTurn s = some (x, t.schedule)) := by
  obtain ⟨t, ht, -⟩ := step_cases s
  refine ⟨t, ht, ?_⟩
  unfold step at ht
  match hs : nextTurn s with
  | none => rw [takeTurn_none hs] at ht; cases ht; exact .inl ⟨rfl, rfl⟩
  | some (.reset, ts) => rw [takeTurn_reset hs] at ht; cases ht; exact .inr ⟨_, rfl⟩
  | some (.agent a, ts) =>
    refine .inr ⟨.agent a, ?_⟩
    match hq : nextRequest a s with
    | none => rw [takeTurn_spent hs hq] at ht; cases ht; rfl
    | some (.word w p, q) =>
      rw [takeTurn_word hs hq] at ht
      rw [(runWord_lists ht).1]; simp
    | some (.waitTrig g, q) =>
      rw [takeTurn_wait hs hq, serve_wait] at ht; cases ht; simp

/-- Everything a step can do to an agent's list: leave it, take its first item, or, in a WAITTRIG that goes on, take the
item and put it back. -/
theorem step_queue {s t : State} (h : step s = .next t) (b : Agent) :
    queueOf b t = queueOf b s ∨
      (∃ ts, nextTurn s = some (.agent b, ts)) ∧ ∃ x q, nextRequest b s = some (x, q) ∧
        (queueOf b t = q ∨ (∃ g, x = .waitTrig g) ∧ queueOf b t = q.push x) := by
  unfold step at h
  match hs : nextTurn s with
  | none => rw [takeTurn_none hs] at h; cases h; exact .inl rfl
  | some (.reset, ts) => rw [takeTurn_reset hs] at h; cases h; exact .inl (by simp)
  | some (.agent a, ts) =>
    match hq : nextRequest a s with
    | none => rw [takeTurn_spent hs hq] at h; cases h; exact .inl (by simp)
    | some (.word w p, q) =>
      rw [takeTurn_word hs hq] at h
      rw [(runWord_lists h).2, queueOf_setPins]
      by_cases e : b = a
      · subst e; exact .inr ⟨⟨ts, rfl⟩, _, q, hq, .inl (queueOf_setQueue_self _ _ _)⟩
      · exact .inl (by rw [queueOf_setQueue_other e, queueOf_setSchedule])
    | some (.waitTrig g, q) =>
      rw [takeTurn_wait hs hq, serve_wait] at h; cases h
      by_cases e : b = a
      · subst e
        refine .inr ⟨⟨ts, rfl⟩, _, q, hq, ?_⟩
        rcases queueOf_goOnWaiting b b g (respond _ _) with h' | ⟨-, h'⟩ <;>
          rw [h', queueOf_respond, queueOf_setQueue_self]
        · exact .inl rfl
        · exact .inr ⟨⟨g, rfl⟩, rfl⟩
      · refine .inl ?_
        rcases queueOf_goOnWaiting a b g (respond _ _) with h' | ⟨h', -⟩
        · rw [h', queueOf_respond, queueOf_setQueue_other e, queueOf_setSchedule]
        · exact absurd h' e

/-- A command word is taken off its agent's list for good. -/
theorem step_takes_word {s t : State} {a ts w p q} (hs : nextTurn s = some (.agent a, ts))
    (hq : nextRequest a s = some (.word w p, q)) (h : step s = .next t) : queueOf a t = q := by
  unfold step at h
  rw [takeTurn_word hs hq] at h
  rw [(runWord_lists h).2, queueOf_setPins, queueOf_setQueue_self]

/-- The item at the first place is the next request's. -/
theorem requestAt_zero (a : Agent) (s : State) : requestAt a s 0 = (nextRequest a s).map Prod.fst := rfl

/-- An agent is enabled exactly when its list has a first item. -/
theorem enabled_iff (a : Agent) (s : State) : Enabled a s ↔ requestAt a s 0 ≠ none := by
  simp [Enabled, requestAt_zero]

/-- What a step leaves of an agent's list, item by item: the same items, or, on its own turn, those after the first. -/
theorem step_items {s t : State} (h : step s = .next t) (b : Agent) :
    (∀ n, requestAt b t n = requestAt b s n) ∨
      (∃ ts, nextTurn s = some (.agent b, ts)) ∧ ∀ n, requestAt b t n = requestAt b s (n + 1) := by
  rcases step_queue h b with e | ⟨hts, x, q, hx, e | ⟨-, e⟩⟩
  · exact .inl fun n => by rw [requestAt, e, requestAt]
  · exact .inr ⟨hts, fun n => by rw [requestAt, e]; exact (feed_item_succ _ hx n).symm⟩
  · refine .inl fun n => ?_
    rw [requestAt, e, requestAt]
    cases n with
    | zero => rw [feed_item_zero, feed_item_zero, feed_next_push]; exact (congrArg (Option.map Prod.fst) hx).symm
    | succ n => rw [feed_item_succ _ (feed_next_push _ x q), feed_item_succ _ hx]

/-- The run goes on with the step of its last state. -/
theorem step_stateAt (s : State) (k : Nat) : step (stateAt s k) = .next (stateAt s (k + 1)) := by
  obtain ⟨t, ht, -⟩ := step_cases (stateAt s k)
  rw [stateAt, ht]

theorem stateAt_eq_of_step {s t : State} (h : step s = .next t) (k : Nat) : stateAt s (k + 1) = stateAt t k := by
  induction k with
  | zero => simp only [stateAt, h]
  | succ k ih => rw [stateAt, ih]; rfl

/-- The run from a later state is the later part of the run. -/
theorem stateAt_add (s : State) (k j : Nat) : stateAt s (k + j) = stateAt (stateAt s k) j := by
  induction j with
  | zero => rfl
  | succ j ih => rw [← Nat.add_assoc, stateAt, ih]; rfl

/-- The turns to come after `k` steps are those from place `k` on. -/
theorem turnAt_stateAt (s : State) (k j : Nat) : turnAt (stateAt s k) j = turnAt s (k + j) := by
  induction k generalizing s with
  | zero => rw [Nat.zero_add]; rfl
  | succ k ih =>
    obtain ⟨t, ht, h⟩ := step_schedule s
    rw [stateAt_eq_of_step ht, ih, show k + 1 + j = (k + j) + 1 by omega]
    rcases h with ⟨hn, rfl⟩ | ⟨x, hx⟩
    · rw [turnAt, turnAt, feed_item_of_end _ hn, feed_item_of_end _ hn]
    · exact (feed_item_succ _ hx _).symm

/-- The step from `stateAt s k` takes the turn at place `k`. -/
theorem nextTurn_stateAt (s : State) (k : Nat) : (nextTurn (stateAt s k)).map Prod.fst = turnAt s k :=
  turnAt_stateAt s k 0

/-- Finitely many steps of the statements are the run. -/
theorem runSteps_eq_stateAt (k : Nat) (s : State) : runSteps k s = .next (stateAt s k) := by
  induction k generalizing s with
  | zero => rfl
  | succ k ih =>
    obtain ⟨t, ht, -⟩ := step_cases s
    rw [stateAt_eq_of_step ht, ← ih t, runSteps, ht]; rfl

end Sys2Proof.Machine
end

