-- ==== Sys2Proof/Tests/Slice0.lean ====
section
/-!
SUPPORT. Tests of the model against the vectors of spec/95_test_vectors.md, and for every statement with hypotheses a
witness that meets them. Each test's source is named in its comment.
-/

open Sys2Proof Sys2Proof.Machine Host

namespace Sys2Proof.Tests

/-- A state with these parameters, filter and trigger pin, and nothing else in it. -/
def stateOf (p : TrigParams) (c : Nat) (st : TrigStatus) (raw : Bool) : State where
  cnt := c
  status := st
  params := p
  pins := { trigRaw := raw, volOpt := 0 }
  responses := []
  tickQueue := .finite []
  hostQueue := .finite []
  schedule := .finite []

/-- The small instance of R4. -/
abbrev small := stateOf Config.smallParams

/-- The reference instance of R4. -/
abbrev reference := stateOf Config.referenceParams

/-- The small instance with these option pins. -/
def withOptions (o : BitVec 3) : State := setPins { trigRaw := false, volOpt := o } (small 0 .clear false)

/-- The small instance with one host request and the turn for it. -/
def withRequest (r : Request) : State :=
  { small 3 .clear false with hostQueue := .finite [r], schedule := .finite [.agent .host] }

def stateAfter : Outcome State Fault Refusal → Option State
  | .next s => some s
  | .fault _ => none
  | .refused _ => none

/-- Counter and status after an outcome. -/
def filterAfter (o : Outcome State Fault Refusal) : Option (Nat × TrigStatus) :=
  (stateAfter o).map fun s => (s.cnt, s.status)

/-- The newest response after an outcome. -/
def answerAfter (o : Outcome State Fault Refusal) : Option Response :=
  (stateAfter o).bind lastResponse

/-! ### WellFormed: an ill-formed term for each check -/

theorem test_conv8_divisor_zero_ill_formed : (Instr.conv8 0 false 128).wellFormed = false := by decide
theorem test_conv8_divisor_nine_ill_formed : (Instr.conv8 9 false 128).wellFormed = false := by decide
theorem test_conv16_divisor_zero_ill_formed : (Instr.conv16 0 false 1).wellFormed = false := by decide
theorem test_conv16_divisor_fifteen_ill_formed : (Instr.conv16 15 true 1).wellFormed = false := by decide

/-! ### Decoding: words written out from R50 and R54, OP DIV RSV ST DATA -/

theorem test_decode_tick : decode (0b0001#4 ++ 0b0000#4 ++ 0b0000000#7 ++ 0b0#1 ++ 0x0000#16) = .ok .tick := by
  decide
theorem test_decode_rdtrig :
    decode (0b0010#4 ++ 0b0000#4 ++ 0b0000000#7 ++ 0b0#1 ++ 0x0000#16) = .ok .rdtrig := by decide
theorem test_decode_volrd :
    decode (0b0011#4 ++ 0b0000#4 ++ 0b0000000#7 ++ 0b0#1 ++ 0x0000#16) = .ok .volrd := by decide
/-- V-8-12 and V-ST-3. -/
theorem test_decode_conv8 :
    decode 0b10000011000000000000000001111111 = .ok (.conv8 3 false 127) ∧
    decode 0b10000010000000010000000011111111 = .ok (.conv8 2 true 255) := by decide
/-- V-16-17 and V-ST-1. -/
theorem test_decode_conv16 :
    decode 0b10010010000000001111111111111001 = .ok (.conv16 2 false 0xFFF9) ∧
    decode 0b10010010000000011111111111111001 = .ok (.conv16 2 true 0xFFF9) := by decide
/-- V-INV-1 to V-INV-14: every word is refused. -/
theorem test_decode_refuses :
    ([0x00000000, 0x40000000, 0xA1000000, 0xFFFFFFFF, 0x91020000, 0x81800080, 0x10000001, 0x21000000, 0x30010000,
      0x90001234, 0x99001234, 0x8F000080, 0x81000180, 0x8100FF80] : List Nat).all
        (fun w => decodeTableWord 32 w == none) = true := by decide
/-- R59's listing: the encoder on the words of the table. -/
theorem test_encode :
    encode .tick = 0x10000000 ∧ encode .rdtrig = 0x20000000 ∧ encode .volrd = 0x30000000 ∧
    encode (.conv8 3 false 127) = 0x8300007F ∧ encode (.conv8 2 true 255) = 0x820100FF ∧
    encode (.conv16 2 false 0xFFF9) = 0x9200FFF9 ∧ encode (.conv16 2 true 0xFFF9) = 0x9201FFF9 := by decide

/-! ### Operations -/

/-- V-TRG-16, V-TRG-17, V-TRG-1 and V-TRG-3 on the small instance. -/
theorem test_tick_small :
    filterAfter (exec .tick (small 5 .clear true)) = some (6, .set) ∧
    filterAfter (exec .tick (small 2 .set false)) = some (1, .clear) ∧
    filterAfter (exec .tick (small 0 .clear false)) = some (0, .clear) ∧
    filterAfter (exec .tick (small 7 .set true)) = some (7, .set) := by decide
/-- V-TRG-11 to V-TRG-14 (the source's examples E1 and E2 among them) on the reference instance. -/
theorem test_tick_reference :
    filterAfter (exec .tick (reference 240 .clear true)) = some (241, .set) ∧
    filterAfter (exec .tick (reference 201 .set false)) = some (200, .set) ∧
    filterAfter (exec .tick (reference 15 .set false)) = some (14, .clear) ∧
    filterAfter (exec .tick (reference 16 .set false)) = some (15, .set) := by decide
/-- V-TRG-18. -/
theorem test_rdtrig :
    answerAfter (exec .rdtrig (small 6 .set false)) = some { st := 1, cnt := 6 } ∧
    filterAfter (exec .rdtrig (small 6 .set false)) = some (6, .set) := by decide
/-- V-VOL-0 to V-VOL-7. -/
theorem test_volrd :
    ([0, 1, 2, 3, 4, 5, 6, 7] : List (BitVec 3)).map (fun o => (answerAfter (exec .volrd (withOptions o))).map (·.div)) =
      [some 1, some 2, some 3, some 4, some 5, some 6, some 7, some 8] := by decide
/-- V-8-5, V-8-12, V-8-10, V-8-2. -/
theorem test_conv8 :
    answerAfter (exec (.conv8 3 false 0) (small 0 .clear false)) =
      some { va := true, vb := true, a := 0xD556, b := 0xD556 } ∧
    answerAfter (exec (.conv8 3 false 127) (small 0 .clear false)) =
      some { va := true, vb := true, a := 0xFFAB, b := 0xFFAB } ∧
    answerAfter (exec (.conv8 8 false 255) (small 0 .clear false)) =
      some { va := true, vb := true, a := 0x0FE0, b := 0x0FE0 } ∧
    answerAfter (exec (.conv8 8 false 128) (small 0 .clear false)) = some { va := true, vb := true } := by decide
/-- V-16-6, V-16-8, V-16-15, V-16-29. -/
theorem test_conv16 :
    answerAfter (exec (.conv16 1 false 0x8000) (small 0 .clear false)) =
      some { va := true, vb := true, a := 0x8000, b := 0x8000 } ∧
    answerAfter (exec (.conv16 3 false 0x8000) (small 0 .clear false)) =
      some { va := true, vb := true, a := 0xD556, b := 0xD556 } ∧
    answerAfter (exec (.conv16 8 false 0xFFFF) (small 0 .clear false)) = some { va := true, vb := true } ∧
    answerAfter (exec (.conv16 7 false 0xCFC7) (small 0 .clear false)) =
      some { va := true, vb := true, a := 0xF91D, b := 0xF91D } := by decide
/-- V-ST-1 and V-ST-3. -/
theorem test_stereo :
    answerAfter (exec (.conv16 2 true 0xFFF9) (small 0 .clear false)) = some { va := true, a := 0xFFFD } ∧
    answerAfter (exec (.conv8 2 true 255) (small 0 .clear false)) = some { va := true, a := 0x3F80 } := by decide

/-! ### Steps -/

/-- V-TRG-19: a malformed TICK at the port does not tick. -/
theorem test_step_malformed_tick :
    answerAfter (step (withRequest (.word 0x10000001 { trigRaw := true, volOpt := 0 }))) = some { inv := true } ∧
    filterAfter (step (withRequest (.word 0x10000001 { trigRaw := true, volOpt := 0 }))) = some (3, .clear) := by
  decide
/-- P1's first tick: the pin value comes with the request. -/
theorem test_step_tick :
    filterAfter (step (withRequest (.word 0x10000000 { trigRaw := true, volOpt := 0 }))) = some (4, .clear) := by
  decide
/-- R86: WAITTRIG leaves the loop at its first RDTRIG that returns the target, and only then. -/
theorem test_step_wait :
    (stateAfter (step (withRequest (.waitTrig .clear)))).map (·.hostQueue) = some (.finite []) ∧
    (stateAfter (step (withRequest (.waitTrig .set)))).map (·.hostQueue) = some (.finite [.waitTrig .set]) := by
  decide
/-- R21, R140: RESET between two operations. -/
theorem test_step_reset :
    filterAfter (step { small 6 .set true with schedule := .finite [.reset] }) = some (0, .clear) := by decide
/-- R33: the two byte orders of one element. -/
theorem test_element_bytes :
    elementsOfBytes .little [0x18, 0xFC, 0xE8, 0x03] = [0xFC18, 0x03E8] ∧
    elementsOfBytes .big [0xFC, 0x18, 0x03, 0xE8] = [0xFC18, 0x03E8] := by decide

/-! ### Witnesses: for each statement with hypotheses, operands that meet them together -/

theorem witness_DecodeOfEncode :
    (Instr.conv8 1 false 0).wellFormed = true ∧ (Instr.conv8 8 true 255).wellFormed = true ∧
    (Instr.conv16 1 false 0).wellFormed = true ∧ (Instr.conv16 8 true 0xFFFF).wellFormed = true := by decide
theorem witness_EncodeOfDecode : decode 0x88010001 = .ok (.conv8 8 true 1) := by decide
theorem witness_DecodeFollowsOpcodeMap :
    rowOf (.conv16 1 false 0) ∈ opcodeRows ∧ selectsRow 0x91000000 (rowOf (.conv16 1 false 0)) = true ∧
    rowOf .tick ∈ opcodeRows ∧ selectsRow 0x10000000 (rowOf .tick) = true := by decide
/-- One word for each clause of R57, and the nearest valid words; for every statement that assumes an invalid word. -/
theorem witness_InvalidWord :
    InvalidWord 0x00000000 ∧ InvalidWord 0x91020000 ∧ InvalidWord 0x10000001 ∧ InvalidWord 0x90001234 ∧
    InvalidWord 0x99001234 ∧ InvalidWord 0x81000180 ∧ ¬InvalidWord 0x91001234 ∧ ¬InvalidWord 0x98001234 :=
  ⟨by decide, by decide, by decide, by decide, by decide, by decide, by decide, by decide⟩
theorem witness_VolrdResult :
    (0x30000000#32).extractLsb' 28 4 = 0x3 ∧ (0x30000001#32).extractLsb' 28 4 = 0x3 ∧
    (0x30000001#32) ≠ 0x30000000 ∧ 1 ≤ (1#4).toNat ∧ (8#4).toNat ≤ 8 := by decide
theorem witness_VolumeTable :
    ((withOptions 0).pins.volOpt.getLsbD 2, (withOptions 0).pins.volOpt.getLsbD 1,
      (withOptions 0).pins.volOpt.getLsbD 0) = (false, false, false) ∧
    ((withOptions 7).pins.volOpt.getLsbD 2, (withOptions 7).pins.volOpt.getLsbD 1,
      (withOptions 7).pins.volOpt.getLsbD 0) = (true, true, true) ∧
    ((withOptions 4).pins.volOpt.getLsbD 2, (withOptions 4).pins.volOpt.getLsbD 1,
      (withOptions 4).pins.volOpt.getLsbD 0) = (true, false, false) := by decide
theorem witness_LargerOptionIsQuieter :
    (withOptions 0).pins.volOpt.toNat < (withOptions 1).pins.volOpt.toNat ∧
    (withOptions 0).pins.volOpt.toNat < (withOptions 7).pins.volOpt.toNat := by decide
theorem witness_TickResult :
    (0x10000000#32).extractLsb' 28 4 = 0x1 ∧ (0x10000001#32).extractLsb' 28 4 = 0x1 := by decide
theorem witness_TickCounterLaw :
    (small 0 .clear false).cnt ≤ (small 0 .clear false).params.max ∧
    (small 7 .set true).cnt ≤ (small 7 .set true).params.max := by decide
/-- Each row of the table at its boundary: the updated counter is LO - 1, LO, HI, HI + 1. -/
theorem witness_TickStatusTable :
    (small 0 .clear true).params.Legal ∧
    filterAfter (exec .tick (small 0 .clear true)) = some (1, .clear) ∧
    filterAfter (exec .tick (small 2 .set false)) = some (1, .clear) ∧
    filterAfter (exec .tick (small 1 .clear true)) = some (2, .clear) ∧
    filterAfter (exec .tick (small 4 .clear true)) = some (5, .clear) ∧
    filterAfter (exec .tick (small 3 .set false)) = some (2, .set) ∧
    filterAfter (exec .tick (small 6 .set false)) = some (5, .set) ∧
    filterAfter (exec .tick (small 5 .clear true)) = some (6, .set) ∧
    filterAfter (exec .tick (small 5 .set true)) = some (6, .set) := by decide
theorem witness_TickTransitions :
    FilterInv (small 5 .clear true) ∧ FilterInv (small 2 .set false) := by decide
theorem witness_OnlyTickAndResetMoveTheFilter :
    filterAfter (step (withRequest (.word 0x10000000 { trigRaw := false, volOpt := 0 }))) = some (2, .clear) ∧
    (withRequest (.word 0x10000000 { trigRaw := false, volOpt := 0 })).cnt = 3 := by decide
theorem witness_TickExamples :
    Config.referenceParams.Legal ∧ Config.referenceParams.hi = 240 ∧ Config.referenceParams.lo ≤ 200 ∧
    filterAfter (exec .tick (reference 240 .clear true)) = some (241, .set) ∧
    filterAfter (exec .tick (reference 199 .set true)) = some (200, .set) ∧
    filterAfter (exec .tick (reference 201 .set false)) = some (200, .set) := by decide
theorem witness_CounterFitsItsWidth :
    FilterInv (small 7 .set true) ∧ Config.smallParams.max < 2 ^ 3 ∧ Config.referenceParams.max < 2 ^ 8 := by decide
theorem witness_SetNeedsTicks :
    FilterInv (small 0 .clear false) ∧ (small 0 .clear false).status = .clear ∧
    filterAfter (tickAll [true, true, true, true, true] (small 0 .clear false)) = some (5, .clear) ∧
    filterAfter (tickAll [true, true, true, true, true, true] (small 0 .clear false)) = some (6, .set) := by decide
theorem witness_ClearNeedsTicks :
    FilterInv (small 7 .set false) ∧ (small 7 .set false).status = .set ∧
    filterAfter (tickAll [false, false, false, false, false] (small 7 .set false)) = some (2, .set) ∧
    filterAfter (tickAll [false, false, false, false, false, false] (small 7 .set false)) = some (1, .clear) := by
  decide
theorem witness_WaitTrigIteration :
    nextTurn (withRequest (.waitTrig .set)) = some (.agent .host, .finite []) ∧
    nextRequest .host (withRequest (.waitTrig .set)) = some (.waitTrig .set, .finite []) ∧
    (withRequest (.waitTrig .set)).status ≠ .set ∧ (withRequest (.waitTrig .clear)).status = .clear := by decide
/-- MAX - LO + 1 = 6 ticks on the small instance, from the farthest SET state. -/
def waitingState : State :=
  { small 7 .set false with
    tickQueue := .finite (List.replicate 6 (.word 0x10000000 { trigRaw := false, volOpt := 0 }))
    hostQueue := .finite [.waitTrig .clear]
    schedule := .finite (List.replicate 6 (.agent .tick) ++ [.agent .host]) }
theorem witness_WaitClearEnds :
    FilterInv waitingState ∧ waitingState.params.max - waitingState.params.lo + 1 ≤ 6 ∧
    (∀ i, i < 6 → requestAt .tick waitingState i = some (.word 0x10000000 { trigRaw := false, volOpt := 0 })) ∧
    nextRequest .host waitingState = some (.waitTrig .clear, .finite []) ∧
    (∀ i, i < 6 → turnAt waitingState i = some (.agent .tick)) ∧ turnAt waitingState 6 = some (.agent .host) := by
  decide
/-- A block with a tick agent that never stops and samples `raw` for ever, and a host that waits; the turns alternate. -/
def spinning (c : Nat) (st : TrigStatus) (raw : Bool) (g : TrigStatus) : State :=
  { small c st raw with
    tickQueue := .forever [.word 0x10000000 { trigRaw := raw, volOpt := 0 }]
    hostQueue := .finite [.waitTrig g]
    schedule := .forever [.agent .tick, .agent .host] }
theorem spinning_turns (c st raw g n) : turnAt (spinning c st raw g) (2 * n) = some (.agent .tick) ∧
    turnAt (spinning c st raw g) (2 * n + 1) = some (.agent .host) := feed_item_forever_two _ _ _ n
theorem spinning_fair (a c st raw g) : FairFor a (spinning c st raw g) := fun n _ => by
  cases a with
  | tick => exact ⟨2 * n, by omega, (spinning_turns c st raw g n).1⟩
  | host => exact ⟨2 * n + 1, by omega, (spinning_turns c st raw g n).2⟩
theorem spinning_no_reset (c st raw g k) : turnAt (spinning c st raw g) k ≠ some .reset := by
  rcases Nat.even_or_odd' k with ⟨n, rfl | rfl⟩
  · rw [(spinning_turns c st raw g n).1]; decide
  · rw [(spinning_turns c st raw g n).2]; decide
/-- Both targets, from the farthest states. -/
theorem witness_WaitEndsUnderFairness :
    FilterInv (spinning 0 .clear true .set) ∧ FilterInv (spinning 7 .set false .clear) ∧
    nextRequest .host (spinning 0 .clear true .set) = some (.waitTrig .set, .finite []) ∧
    nextRequest .host (spinning 7 .set false .clear) = some (.waitTrig .clear, .finite []) ∧
    (∀ n, requestAt .tick (spinning 0 .clear true .set) n =
      some (.word 0x10000000 { trigRaw := true, volOpt := 0 })) ∧
    (∀ n, requestAt .tick (spinning 7 .set false .clear) n =
      some (.word 0x10000000 { trigRaw := false, volOpt := 0 })) ∧
    (∀ k, turnAt (spinning 0 .clear true .set) k ≠ some .reset) ∧
    (∀ a, FairFor a (spinning 0 .clear true .set) ∧ FairFor a (spinning 7 .set false .clear)) :=
  ⟨by decide, by decide, by decide, by decide, feed_item_forever_one _ _, feed_item_forever_one _ _,
    spinning_no_reset _ _ _ _, fun _ => ⟨spinning_fair _ _ _ _ _, spinning_fair _ _ _ _ _⟩⟩
/-- A host that waits for SET with the tick stopped: it gets the turn for ever. -/
def hanging : State :=
  { small 3 .clear false with hostQueue := .finite [.waitTrig .set], schedule := .forever [.agent .host] }
theorem hanging_run (k : Nat) :
    stateAt hanging k = { hanging with responses := List.replicate k { st := 0, cnt := 3 } } := by
  induction k with
  | zero => rfl
  | succ k ih => rw [stateAt, ih]; rfl
theorem witness_UnmetWaitNeverEnds :
    nextRequest .host hanging = some (.waitTrig .set, .finite []) ∧ (∀ k, (stateAt hanging k).status ≠ .set) ∧
    (∀ k, turnAt hanging k = some (.agent .host)) ∧ FairFor .host hanging :=
  ⟨by decide, fun k => by rw [hanging_run]; exact (by decide : TrigStatus.clear ≠ .set), feed_item_forever_one _ _,
    fun n _ => ⟨n, Nat.le_refl n, feed_item_forever_one _ _ n⟩⟩
/-- The ends of the legal range, for every statement that assumes a legal divisor (Conv8Result, Conv16Result,
Conv8Checkpoints, SilencePreserved, EmittedSamples, MirrorImages, RefillStream). -/
theorem witness_legal_divisors : 1 ≤ (1#4).toNat ∧ (1#4).toNat ≤ 8 ∧ 1 ≤ (8#4).toNat ∧ (8#4).toNat ≤ 8 := by decide
theorem witness_Conv8Result :
    (0x81000080#32).extractLsb' 28 4 = 0x8 ∧ (0x81000080#32).extractLsb' 17 7 = 0 ∧
    (0x81000080#32).extractLsb' 8 8 = 0 ∧ 1 ≤ ((0x81000080#32).extractLsb' 24 4).toNat ∧
    ((0x81000080#32).extractLsb' 24 4).toNat ≤ 8 ∧
    (0x81000180#32).extractLsb' 28 4 = 0x8 ∧ (0x81000180#32).extractLsb' 8 8 ≠ 0 := by decide
theorem witness_Conv16Result :
    (0x98001234#32).extractLsb' 28 4 = 0x9 ∧ (0x98001234#32).extractLsb' 17 7 = 0 ∧
    ((0x98001234#32).extractLsb' 24 4).toNat = 8 ∧
    (0x99001234#32).extractLsb' 28 4 = 0x9 ∧ ((0x99001234#32).extractLsb' 24 4).toNat = 9 := by decide
theorem witness_IllegalDivisorInvalid : (0#4).toNat = 0 ∧ 8 < (9#4).toNat ∧ 8 < (15#4).toNat := by decide
/-- One dividend for each sign case of R104, with its quotient from V-16-18, V-16-17 and V-16-20. -/
theorem witness_TruncatingDivisionLaws :
    tdiv 7 2 = 3 ∧ tdiv 0 8 = 0 ∧ tdiv (-8) 8 = -1 ∧ (8 : Int) ∣ -8 ∧ tdiv (-7) 2 = -3 ∧ ¬(2 : Int) ∣ -7 := by decide
/-- The first and the last row of R105's table, at the operands that reach its bounds (V-16-6, V-16-12, V-8-7, V-8-10). -/
theorem witness_ConverterRange :
    (answerAfter (exec (.conv16 1 false 0x8000) (small 0 .clear false))).map (fun r => r.a.toInt) = some (-32768) ∧
    (answerAfter (exec (.conv16 8 false 0x8000) (small 0 .clear false))).map (fun r => r.a.toInt) = some (-4096) ∧
    (answerAfter (exec (.conv8 1 false 255) (small 0 .clear false))).map (fun r => r.a.toInt) = some 32512 ∧
    (answerAfter (exec (.conv8 8 false 255) (small 0 .clear false))).map (fun r => r.a.toInt) = some 4064 := by decide
theorem witness_MirrorImages : (0x8001#16) ≠ 0x8000 ∧ (0x7FFF#16) ≠ 0x8000 := by decide
/-- R101 (e): -7 by 2; the shift gives -4. -/
theorem witness_QuotientIsNoShift :
    (answerAfter (exec (.conv16 2 false 0xFFF9) (small 0 .clear false))).map (fun r => r.a.toInt) = some (-3) ∧
    ((0xFFF9#16).sshiftRight 1).toInt = -4 := by decide
theorem witness_OperationFrame : Instr.rdtrig ≠ .tick ∧ Instr.conv8 1 false 0 ≠ .tick := by decide
theorem witness_StepRunsDecodedWord :
    nextTurn (withRequest (.word 0x20000000 { trigRaw := true, volOpt := 5 })) = some (.agent .host, .finite []) ∧
    nextRequest .host (withRequest (.word 0x20000000 { trigRaw := true, volOpt := 5 })) =
      some (.word 0x20000000 { trigRaw := true, volOpt := 5 }, .finite []) ∧
    decode 0x20000000 = .ok .rdtrig := by decide
theorem witness_StepAnswersInvalidWord :
    nextTurn (withRequest (.word 0 { trigRaw := true, volOpt := 5 })) = some (.agent .host, .finite []) ∧
    nextRequest .host (withRequest (.word 0 { trigRaw := true, volOpt := 5 })) =
      some (.word 0 { trigRaw := true, volOpt := 5 }, .finite []) ∧ InvalidWord 0 := by decide
theorem witness_StepRunsFetchedWord : decodeTableWord 32 0x10000000 = some .tick := by decide
theorem witness_PinsReadOnlyWhereSampled :
    (Pins.mk true 0).trigRaw = (Pins.mk true 7).trigRaw ∧ (Pins.mk true 7).volOpt = (Pins.mk false 7).volOpt ∧
    Instr.rdtrig ≠ .tick ∧ Instr.rdtrig ≠ .volrd ∧ InvalidWord 0 := by decide
theorem witness_PureOperationsCommute : Instr.volrd ≠ .tick ∧ Instr.volrd ≠ .rdtrig := by decide
theorem witness_TicksDoNotCommute :
    (small 0 .clear false).params.Legal ∧ (small 0 .clear false).cnt = 0 := by decide
theorem witness_RepeatedOperation :
    Instr.volrd ≠ .tick ∧ (small 0 .clear true).params.Legal ∧ (small 0 .clear true).cnt = 0 ∧
    (small 0 .clear true).pins.trigRaw = true := by decide
theorem witness_AgentsKeepTheirOrder :
    (stateAfter (step (withRequest (.word 0 { trigRaw := false, volOpt := 0 })))).isSome = true ∧
    nextTurn (withRequest (.word 0 { trigRaw := false, volOpt := 0 })) = some (.agent .host, .finite []) ∧
    Agent.tick ≠ Agent.host := by decide
theorem witness_StepKeepsParameters : (stateAfter (step (small 6 .set true))).isSome = true := by decide
/-- A state whose infinite lists are unknown: a tick agent that never stops, any turns. -/
def neverStopping : State :=
  { small 0 .clear false with
    tickQueue := { front := [], rest := .free 0 0 }, schedule := { front := [], rest := .free 1 0 } }
theorem witness_RunsGoOn :
    neverStopping.tickQueue = { front := [], rest := .free 0 0 } ∧ ∀ n, requestAt .tick neverStopping n ≠ none :=
  ⟨rfl, fun n => by
    have h : requestAt .tick neverStopping n = some (freeRequestOf .tick 0 (0 + n)) := feed_item_free _ 0 0 n
    rw [h]; exact Option.some_ne_none _⟩
theorem witness_RunOverIsFinal :
    RunOver { small 6 .set true with schedule := .forever [.agent .tick, .agent .host] } ∧
    (∀ j, j < 8 → turnAt { small 6 .set true with schedule := .forever [.agent .tick, .agent .host] } j ≠
      some .reset) := ⟨fun a => by cases a <;> rfl, by decide⟩
/-- The first two elements of P3, at divisor 2. -/
def refillState : State :=
  { small 0 .clear false with
    hostQueue := (Feed.finite []).prepend (requestsOf { trigRaw := false, volOpt := 1 } (refill8 2 [0x00, 0x7F]))
    schedule := (Feed.finite []).prepend (List.replicate 2 (.agent .host)) }
theorem witness_RefillStream :
    refillState.hostQueue =
      (Feed.finite []).prepend (requestsOf { trigRaw := false, volOpt := 1 } (refill8 2 [0x00, 0x7F])) ∧
    refillState.schedule = (Feed.finite []).prepend (List.replicate [0x00#8, 0x7F#8].length (.agent .host)) ∧
    (stateAfter (runSteps 2 refillState)).map State.outputStream = some [0xC000, 0xC000, 0xFF80, 0xFF80] := by decide
/-- The elements of P4's third and fourth conversion, at divisor 3. -/
def refillState16 : State :=
  { small 0 .clear false with
    hostQueue := (Feed.finite []).prepend (requestsOf { trigRaw := false, volOpt := 2 } (refill16 3 [0xFC18, 0x03E8]))
    schedule := (Feed.finite []).prepend (List.replicate 2 (.agent .host)) }
theorem witness_RefillStream16 :
    refillState16.hostQueue =
      (Feed.finite []).prepend (requestsOf { trigRaw := false, volOpt := 2 } (refill16 3 [0xFC18, 0x03E8])) ∧
    refillState16.schedule = (Feed.finite []).prepend (List.replicate [0xFC18#16, 0x03E8#16].length (.agent .host)) ∧
    (stateAfter (runSteps 2 refillState16)).map State.outputStream = some [0xFEB3, 0xFEB3, 0x014D, 0x014D] := by
  decide
theorem witness_ElementByteOrder : 2 * 1 + 1 < [0x18#8, 0xFC#8, 0xE8#8, 0x03#8].length := by decide
theorem witness_ResetTurn :
    nextTurn { small 6 .set true with schedule := .finite [.reset] } = some (.reset, .finite []) := by decide
theorem witness_NoTurnNoChange : nextTurn (small 6 .set true) = none := by decide
theorem witness_StepKeepsInv :
    FilterInv (withRequest (.word 0x10000000 { trigRaw := true, volOpt := 0 })) ∧
    (stateAfter (step (withRequest (.word 0x10000000 { trigRaw := true, volOpt := 0 })))).isSome = true := by decide

end Sys2Proof.Tests
end

section
/-!
The counter's width and the invariant at reset (00_scope.md R4, 10_state.md R21).
-/

namespace Sys2Proof

/-- `CW` is the least width that holds `MAX` (R4). -/
theorem TrigParams.cw_le_iff (p : TrigParams) (n : Nat) : p.cw ≤ n ↔ p.max < 2 ^ n := by
  rw [TrigParams.cw, Nat.clog_le_iff_le_pow Nat.one_lt_two, Nat.succ_le_iff]

theorem TrigParams.max_lt_two_pow_cw (p : TrigParams) : p.max < 2 ^ p.cw :=
  (p.cw_le_iff p.cw).mp le_rfl

/-- Settles O18: the invariant bounds the counter by `MAX`, and `CW` is the least width that holds `MAX`. -/
theorem counterFitsItsWidth : Obligations.CounterFitsItsWidth := by
  refine ⟨fun s hs => ?_, fun p n hn => (p.cw_le_iff n).mpr hn⟩
  obtain ⟨-, hmax, -⟩ := hs
  exact hmax.trans_lt s.params.max_lt_two_pow_cw

namespace Machine

/-- A cleared filter (`CNT = 0`, `STATUS = CLEAR`) meets the invariant under any legal parameters. -/
theorem filterInv_of_cleared {s : State} (hlegal : s.params.Legal) (hcnt : s.cnt = 0)
    (hstatus : s.status = .clear) : FilterInv s := by
  refine ⟨hlegal, ?_, ?_, ?_⟩
  · simp [hcnt]
  · simp [hstatus]
  · simp [hcnt]

/-- Settles O54: reset clears the filter, and this machine's parameters are legal whatever the OPEN gaps are. -/
theorem resetMeetsInv : Obligations.ResetMeetsInv :=
  filterInv_of_cleared config_trig_legal rfl rfl

end Machine
end Sys2Proof
end

section
/-!
Which words the decoder lets through: TICK's one word (41_trigger_debounce.md R80), and none of the words that
R57 (30_encoding.md) calls invalid.
-/

namespace Sys2Proof

/-- A word whose fields are an operation's is that operation's word. -/
theorem eq_encode_of_splitWord {w : Word} {i : Instr} (h : splitWord w = fieldsOf i) : w = encode i := by
  rw [encode, ← h, joinFields_splitWord]

/-- An operation without operands is selected by its own word alone (R54). -/
theorem eq_encode_of_decode_plain {w : Word} {i : Instr} (h : decode w = .ok i)
    (hi : i = .tick ∨ i = .rdtrig ∨ i = .volrd) : w = encode i := by
  have hfields {op} (hop : (splitWord w).op = op) (hdiv : (splitWord w).div = 0) (hrsv : (splitWord w).rsv = 0)
      (hst : (splitWord w).st = 0) (hdata : (splitWord w).data = 0) :
      splitWord w = { op, div := 0, rsv := 0, st := 0, data := 0 } := by
    rw [← hop, ← hdiv, ← hrsv, ← hst, ← hdata]
  apply eq_encode_of_splitWord
  obtain ⟨hrsv, ⟨hop, hdiv, hst, hdata, rfl⟩ | ⟨hop, hdiv, hst, hdata, rfl⟩ | ⟨hop, hdiv, hst, hdata, rfl⟩ |
    ⟨-, -, -, -, rfl⟩ | ⟨-, -, -, rfl⟩⟩ := decodeFields_ok h
  case inr.inr.inr.inl | inr.inr.inr.inr => simp at hi
  all_goals exact hfields hop hdiv hrsv hst hdata

/-- Only one word selects TICK (R80). -/
theorem eq_tickWord_of_decode {w : Word} (h : decode w = .ok .tick) : w = tickWord :=
  (eq_encode_of_decode_plain h (.inl rfl)).trans (by decide)

end Sys2Proof

namespace Sys2Proof.Machine

/-- The decoder's range test on the divisor field, as R57 (d) has it. -/
theorem not_illegal_of_div {d : Div} (hne : d ≠ 0) (hle : d.toNat ≤ 8) : ¬(d.toNat = 0 ∨ 8 < d.toNat) := by
  bv_omega

/-- No word that the decoder lets through meets a condition of R57. -/
theorem not_invalidWord_of_decode {w : Word} {i : Instr} (h : decode w = .ok i) : ¬InvalidWord w := by
  by_cases hi : i = .tick ∨ i = .rdtrig ∨ i = .volrd
  · cases eq_encode_of_decode_plain h hi
    obtain rfl | rfl | rfl := hi <;> decide
  · obtain ⟨hrsv, ⟨-, -, -, -, rfl⟩ | ⟨-, -, -, -, rfl⟩ | ⟨-, -, -, -, rfl⟩ | ⟨hop, hdiv, hle, hhigh, -⟩ |
      ⟨hop, hdiv, hle, -⟩⟩ := decodeFields_ok h
    case inr.inr.inr.inl =>
      have hhigh' : w.extractLsb' 8 8 = 0 := by simpa [splitWord] using hhigh
      have hrange := not_illegal_of_div hdiv hle
      simp only [splitWord] at hop hrsv hrange
      simp only [InvalidWord, hop, hrsv, hrange, hhigh']
      simp
    case inr.inr.inr.inr =>
      have hrange := not_illegal_of_div hdiv hle
      simp only [splitWord] at hop hrsv hrange
      simp only [InvalidWord, hop, hrsv, hrange]
      simp
    all_goals simp at hi

/-- An invalid word is answered by `invalid()`, in every state (R57, R120). -/
theorem runWord_of_invalidWord {w : Word} (h : InvalidWord w) (s : State) : runWord w s = .next (invalid s) := by
  unfold runWord
  cases hd : decode w with
  | ok i => exact absurd h (not_invalidWord_of_decode hd)
  | error e => rfl

/-- A valid word runs the operation it selects. -/
theorem runWord_of_decode {w : Word} {i : Instr} (h : decode w = .ok i) (s : State) : runWord w s = exec i s := by
  simp only [runWord, h]

/-- A table's word that names an operation decodes to it. -/
theorem decode_of_decodeTableWord {nbits w : Nat} {i : Instr} (h : decodeTableWord nbits w = some i) :
    decode (tableWord nbits w) = .ok i := by
  unfold decodeTableWord at h
  split at h
  · next j hj => rw [hj, Option.some.inj h]
  · cases h

end Sys2Proof.Machine
end

section
/-!
Whose turn brought what: the arrivals of `takeTurn` read backwards, and a step on a command word (10_state.md R14,
20_memory.md R38).
-/

namespace Sys2Proof.Machine

/-- Everything a turn can bring: nothing, a RESET on the platform's turn, or the first request of the agent whose
turn it is. -/
theorem takeTurn_cases (s : State) :
    (∃ u, takeTurn s = .idle u) ∨
      (∃ ts, nextTurn s = some (.reset, ts) ∧ takeTurn s = .reset (setSchedule ts s)) ∨
      ∃ a ts x q, nextTurn s = some (.agent a, ts) ∧ nextRequest a s = some (x, q) ∧
        ((∃ w p, x = .word w p ∧ takeTurn s = .word w (setPins p (setQueue a q (setSchedule ts s)))) ∨
          ∃ g, x = .waitTrig g ∧ takeTurn s = .wait a g (setQueue a q (setSchedule ts s))) := by
  match hs : nextTurn s with
  | none => exact .inl ⟨s, takeTurn_none hs⟩
  | some (.reset, ts) => exact .inr (.inl ⟨ts, rfl, takeTurn_reset hs⟩)
  | some (.agent a, ts) =>
    match hq : nextRequest a s with
    | none => exact .inl ⟨_, takeTurn_spent hs hq⟩
    | some (.word w p, q) => exact .inr (.inr ⟨a, ts, _, q, rfl, hq, .inl ⟨w, p, rfl, takeTurn_word hs hq⟩⟩)
    | some (.waitTrig g, q) => exact .inr (.inr ⟨a, ts, _, q, rfl, hq, .inr ⟨g, rfl, takeTurn_wait hs hq⟩⟩)

/-- A RESET comes only from a turn of the platform. -/
theorem nextTurn_of_takeTurn_reset {s u : State} (h : takeTurn s = .reset u) :
    ∃ ts, nextTurn s = some (.reset, ts) := by
  obtain ⟨v, hv⟩ | ⟨ts, hs, -⟩ | ⟨a, ts, x, q, -, -, ⟨w, p, -, hv⟩ | ⟨g, -, hv⟩⟩ := takeTurn_cases s
  · cases hv.symm.trans h
  · exact ⟨ts, hs⟩
  · cases hv.symm.trans h
  · cases hv.symm.trans h

/-- A command word comes only from the list of the agent whose turn it is. -/
theorem nextRequest_of_takeTurn_word {s u : State} {w : Word} (h : takeTurn s = .word w u) :
    ∃ a ts p q, nextTurn s = some (.agent a, ts) ∧ nextRequest a s = some (.word w p, q) := by
  obtain ⟨v, hv⟩ | ⟨ts, -, hv⟩ | ⟨a, ts, x, q, hs, hq, ⟨w', p, rfl, hv⟩ | ⟨g, -, hv⟩⟩ := takeTurn_cases s
  · cases hv.symm.trans h
  · cases hv.symm.trans h
  · cases hv.symm.trans h
    exact ⟨a, ts, p, q, hs, hq⟩
  · cases hv.symm.trans h

/-- On an agent's turn, a step answers the command word at the head of its list. -/
theorem step_of_word {s : State} {a ts w p q} (hs : nextTurn s = some (.agent a, ts))
    (hq : nextRequest a s = some (.word w p, q)) :
    step s = runWord w (setPins p (setQueue a q (setSchedule ts s))) := by
  rw [step, takeTurn_word hs hq, serve]

end Sys2Proof.Machine
end

section
/-!
The pins an operation does not sample (10_state.md R15, R16, 20_memory.md R35): each outcome as a function of the
pins it does sample.
-/

namespace Sys2Proof.Machine

@[simp] theorem setPins_setPins (p p' : Pins) (s : State) : setPins p' (setPins p s) = setPins p' s := rfl

@[simp] theorem setPins_respond (p : Pins) (r : Response) (s : State) :
    setPins p (respond r s) = respond r (setPins p s) := rfl

@[simp] theorem setPins_setTrigger (p : Pins) (c st) (s : State) :
    setPins p (setTrigger c st s) = setTrigger c st (setPins p s) := rfl

/-- What TICK does under given pins: `TRIG_RAW` alone enters (R80). -/
theorem execWith_tick (p : Pins) (s : State) :
    execWith p .tick s = .next (respond {} (setTrigger (nextCount s.params p.trigRaw s.cnt)
      (nextStatus s.params (nextCount s.params p.trigRaw s.cnt) s.status) (setPins p s))) := rfl

/-- The response of VOLRD to the option pins (R70). -/
def volrdResponse (o : BitVec 3) : Response :=
  { div := BitVec.ofNat 4 (volumeDivisor (bitNat (o.getLsbD 2)) (bitNat (o.getLsbD 1)) (bitNat (o.getLsbD 0))) }

/-- What VOLRD does under given pins: `VOL_OPT` alone enters (R70). -/
theorem execWith_volrd (p : Pins) (s : State) :
    execWith p .volrd s = .next (respond (volrdResponse p.volOpt) (setPins p s)) := rfl

/-- RDTRIG, CONV8 and CONV16 give one answer, whatever the pins show (R85, R110). -/
theorem execWith_responds_alike {i : Instr} (htick : i ≠ .tick) (hvolrd : i ≠ .volrd) (s : State) :
    ∃ r, ∀ p, execWith p i s = .next (respond r (setPins p s)) := by
  cases i with
  | tick => exact absurd rfl htick
  | volrd => exact absurd rfl hvolrd
  | rdtrig => exact ⟨{ st := statusBit s.status, cnt := s.cnt }, fun _ => rfl⟩
  | conv8 d st b =>
    obtain ⟨r, hr⟩ := convert_responds (recentre b) d st
    exact ⟨r, fun p => congrArg Host.Outcome.next (hr (setPins p s))⟩
  | conv16 d st x =>
    obtain ⟨r, hr⟩ := convert_responds (signed16 x) d st
    exact ⟨r, fun p => congrArg Host.Outcome.next (hr (setPins p s))⟩

/-- Settles O42: each operation's outcome is a function of the pins it samples, and but for the pins shown the two
runs agree. -/
theorem pinsReadOnlyWhereSampled : Obligations.PinsReadOnlyWhereSampled := by
  intro s p p'
  refine ⟨fun hraw => ?_, fun hopt => ?_, fun i htick hvolrd => ?_, fun w hw => ?_⟩
  · exact ⟨_, _, execWith_tick p s, execWith_tick p' s, by simp [hraw]⟩
  · exact ⟨_, _, execWith_volrd p s, execWith_volrd p' s, by simp [hopt]⟩
  · obtain ⟨r, hr⟩ := execWith_responds_alike htick hvolrd s
    exact ⟨_, _, hr p, hr p', by simp⟩
  · exact ⟨_, _, runWord_of_invalidWord hw _, runWord_of_invalidWord hw _, by simp [invalid]⟩

end Sys2Proof.Machine
end

section
/-!
The block's own state (10_state.md): what moves the filter, what an operation and a step leave unchanged, RESET, and
the output pin.
-/

namespace Sys2Proof.Machine

/-- Settles O14: of the three things a step can do to the filter, resetting it takes the platform's turn and ticking
it takes TICK's one word. -/
theorem onlyTickAndResetMoveTheFilter : Obligations.OnlyTickAndResetMoveTheFilter := by
  intro s t hstep hmoved
  obtain ⟨t', ht', -, hcase⟩ := step_cases s
  cases ht'.symm.trans hstep
  obtain ⟨hcnt, hstatus⟩ | ⟨⟨u, hu⟩, -, -⟩ | ⟨w, u, hu, hdecode, -, -⟩ := hcase
  · exact absurd hmoved (by simp [hcnt, hstatus])
  · exact .inl (nextTurn_of_takeTurn_reset hu)
  · cases eq_tickWord_of_decode hdecode
    exact .inr (nextRequest_of_takeTurn_word hu)

/-- Settles O35: every operation answers once, and only TICK sets the pair before it does. -/
theorem operationFrame : Obligations.OperationFrame := by
  intro i s
  obtain ⟨hi, h⟩ | ⟨-, r, h⟩ := exec_cases i s
  · exact ⟨_, _, h, by simp [SameBoundary], rfl, fun hne => absurd hi hne⟩
  · exact ⟨_, r, h, by simp [SameBoundary], rfl, fun _ => ⟨rfl, rfl⟩⟩

/-- Settles O48: whatever a step does to the filter, it hands the parameters on. -/
theorem stepKeepsParameters : Obligations.StepKeepsParameters := by
  intro s t hstep
  obtain ⟨t', ht', hparams, -⟩ := step_cases s
  cases ht'.symm.trans hstep
  exact hparams

/-- Settles O36: the agent's turn brings the word, and the word runs the operation it selects. -/
theorem stepRunsDecodedWord : Obligations.StepRunsDecodedWord := by
  intro s a ts w p q i hs hq hdecode
  rw [step_of_word hs hq, runWord_of_decode hdecode]

/-- Settles O38: the host's turn and its word are put in front, so the step takes exactly these off again. -/
theorem stepRunsFetchedWord : Obligations.StepRunsFetchedWord := by
  intro s nbits w i h
  have hs : nextTurn (s.withFetchWord nbits w) = some (.agent .host, s.schedule) := rfl
  have hq : nextRequest .host (s.withFetchWord nbits w) =
      some (.word (tableWord nbits w) s.pins, s.hostQueue) := rfl
  exact stepRunsDecodedWord _ _ _ _ _ _ i hs hq (decode_of_decodeTableWord h)

theorem statusBit_eq_one_iff (st : TrigStatus) : statusBit st = 1 ↔ st = .set := by
  cases st <;> decide

theorem statusBit_eq_zero_iff (st : TrigStatus) : statusBit st = 0 ↔ st = .clear := by
  cases st <;> decide

/-- Settles O47: the pin and RDTRIG's `st` are the one coding of the status. -/
theorem triggerPinFollowsStatus : Obligations.TriggerPinFollowsStatus := fun s =>
  ⟨statusBit_eq_one_iff s.status, statusBit_eq_zero_iff s.status, _, _, rfl, rfl, rfl⟩

/-- Settles O51, by the reset state's own fields. -/
theorem resetValues : Obligations.ResetValues := ⟨rfl, rfl, (statusBit_eq_zero_iff _).mpr rfl⟩

/-- Settles O52: the platform's turn brings RESET, which sets the pair. -/
theorem resetTurn : Obligations.ResetTurn := by
  intro s ts hs
  rw [step, takeTurn_reset hs]; rfl

end Sys2Proof.Machine
end

section
/-!
Runs (10_state.md R14, 70_reset_and_hazards.md R156): an infinite list stays infinite, because a step takes at most its
first item.
-/

namespace Sys2Proof.Machine

/-- An agent's list that has an item at every place still has one at every place after any number of steps. -/
theorem requestAt_stateAt_ne_none {s : State} {a : Agent} (h : ∀ n, requestAt a s n ≠ none) (k : Nat) :
    ∀ n, requestAt a (stateAt s k) n ≠ none := by
  induction k with
  | zero => exact h
  | succ k ih =>
    intro n
    obtain hsame | ⟨-, hrest⟩ := step_items (step_stateAt s k) a
    · rw [hsame]; exact ih n
    · rw [hrest]; exact ih (n + 1)

/-- Settles O59: the run's laws, an infinite list along it, and the items of the tick agent's unknown list. -/
theorem runsGoOn : Obligations.RunsGoOn := by
  refine ⟨fun s k => ⟨runSteps_eq_stateAt k s, step_stateAt s k, nextTurn_stateAt s k⟩, fun s a h k => ?_,
    fun s key pos h n => ?_⟩
  · have henabled : Enabled a (stateAt s k) := (enabled_iff _ _).mpr (requestAt_stateAt_ne_none h k 0)
    exact ⟨henabled, fun hover => henabled (hover a)⟩
  · have hq : queueOf .tick s = { front := [], rest := .free key pos } := h
    rw [requestAt, hq, feed_item_free]; rfl

end Sys2Proof.Machine
end

section
/-!
Ordering between the block's operations (20_memory.md R35, R36, R38, R39): what an operation's answer depends on, so
which operations commute and which may be issued again, and how each agent's order is kept.
-/

namespace Sys2Proof.Machine

@[simp] theorem andThen_next (s : State) (f : State → Host.Outcome State Fault Refusal) :
    andThen (.next s) f = f s := rfl

/-- TICK's outcome (R80). -/
theorem exec_tick (s : State) :
    exec .tick s = .next (respond {} (setTrigger (nextCount s.params s.pins.trigRaw s.cnt)
      (nextStatus s.params (nextCount s.params s.pins.trigRaw s.cnt) s.status) s)) := rfl

/-- RDTRIG's outcome (R85). -/
theorem exec_rdtrig (s : State) :
    exec .rdtrig s = .next (respond { st := statusBit s.status, cnt := s.cnt } s) := rfl

/-- VOLRD, CONV8 and CONV16 read no state: one answer in every state (R39). -/
theorem execWith_of_pure {i : Instr} (htick : i ≠ .tick) (hrdtrig : i ≠ .rdtrig) (p : Pins) :
    ∃ r, ∀ s, execWith p i s = .next (respond r (setPins p s)) := by
  cases i with
  | tick => exact absurd rfl htick
  | rdtrig => exact absurd rfl hrdtrig
  | volrd => exact ⟨_, execWith_volrd p⟩
  | conv8 d st b =>
    obtain ⟨r, hr⟩ := convert_responds (recentre b) d st
    exact ⟨r, fun s => congrArg Host.Outcome.next (hr (setPins p s))⟩
  | conv16 d st x =>
    obtain ⟨r, hr⟩ := convert_responds (signed16 x) d st
    exact ⟨r, fun s => congrArg Host.Outcome.next (hr (setPins p s))⟩

/-- Every operation but TICK gives one answer in all states with the same counter and status. -/
theorem execWith_of_ne_tick {i : Instr} (htick : i ≠ .tick) (p : Pins) (s : State) :
    ∃ r, ∀ s' : State, s'.cnt = s.cnt → s'.status = s.status →
      execWith p i s' = .next (respond r (setPins p s')) := by
  by_cases hi : i = .rdtrig
  · subst hi
    refine ⟨{ st := statusBit s.status, cnt := s.cnt }, fun s' hcnt hstatus => ?_⟩
    rw [execWith, exec_rdtrig, setPins_cnt, setPins_status, hcnt, hstatus]
  · obtain ⟨r, hr⟩ := execWith_of_pure htick hi p
    exact ⟨r, fun s' _ _ => hr s'⟩

/-- Every operation gives one answer and leaves one filter in all states with the same filter and parameters. -/
theorem execWith_of_sameFilter (i : Instr) (p : Pins) (s : State) :
    ∃ r c st, ∀ s' : State, s'.cnt = s.cnt → s'.status = s.status → s'.params = s.params →
      execWith p i s' = .next (respond r (setTrigger c st (setPins p s'))) := by
  by_cases hi : i = .tick
  · subst hi
    refine ⟨{}, nextCount s.params p.trigRaw s.cnt,
      nextStatus s.params (nextCount s.params p.trigRaw s.cnt) s.status, fun s' hcnt hstatus hparams => ?_⟩
    rw [execWith_tick, hcnt, hstatus, hparams]
  · obtain ⟨r, hr⟩ := execWith_of_ne_tick hi p s
    refine ⟨r, s.cnt, s.status, fun s' hcnt hstatus _ => ?_⟩
    rw [hr s' hcnt hstatus, ← hcnt, ← hstatus]; rfl

/-- Settles O43: the pure operation's answer is the same in every state, and it hands the other one the same filter. -/
theorem pureOperationsCommute : Obligations.PureOperationsCommute := by
  intro i j p q s htick hrdtrig
  obtain ⟨ri, hi⟩ := execWith_of_pure htick hrdtrig p
  obtain ⟨rj, c, st, hj⟩ := execWith_of_sameFilter j q s
  have hij : andThen (execWith p i s) (execWith q j) =
      .next (respond rj (setTrigger c st (setPins q (respond ri (setPins p s))))) := by
    rw [hi, andThen_next, hj (respond ri (setPins p s)) rfl rfl rfl]
  have hji : andThen (execWith q j s) (execWith p i) =
      .next (respond ri (setPins p (respond rj (setTrigger c st (setPins q s))))) := by
    rw [hj s rfl rfl rfl, andThen_next, hi]
  exact ⟨_, _, ri, rj, hij, hji, rfl, rfl, rfl, rfl, rfl⟩

@[simp] theorem nextCount_false (p : TrigParams) (c : Nat) : nextCount p false c = c - 1 := rfl

/-- Below the bound an asserted trigger counts up by one (R80). -/
theorem nextCount_true_of_lt {p : TrigParams} {c : Nat} (h : c < p.max) : nextCount p true c = c + 1 :=
  min_eq_left h

/-- TICKs move the counter by their samples in turn, whatever becomes of the status. -/
theorem tickAll_cnt (raws : List Bool) (s : State) :
    ∃ t, tickAll raws s = .next t ∧ t.cnt = raws.foldl (fun c raw => nextCount s.params raw c) s.cnt := by
  induction raws generalizing s with
  | nil => exact ⟨s, rfl, rfl⟩
  | cons raw raws ih => exact ih _

/-- Settles O44: at 0 the lower bound absorbs the tick down that comes first, not the one that comes second. -/
theorem ticksDoNotCommute : Obligations.TicksDoNotCommute := by
  intro s ⟨hlo, hhi, hmax⟩ hcnt
  have hup : nextCount s.params true 0 = 1 := nextCount_true_of_lt (by omega)
  obtain ⟨t, ht, htc⟩ := tickAll_cnt [false, true] s
  obtain ⟨u, hu, huc⟩ := tickAll_cnt [true, false] s
  exact ⟨t, u, ht, hu, by simp [htc, hcnt, hup], by simp [huc, hcnt, hup]⟩

/-- Settles O45: an answer leaves what the operation reads as it was, while two ticks from 0 count 1 and 2. -/
theorem repeatedOperation : Obligations.RepeatedOperation := by
  refine ⟨fun i s htick => ?_, fun s ⟨hlo, hhi, hmax⟩ hcnt hraw => ?_⟩
  · obtain ⟨r, hr⟩ := execWith_of_ne_tick htick s.pins s
    exact ⟨respond r s, r, hr s rfl rfl, rfl, hr (respond r s) rfl rfl, rfl, rfl⟩
  · have hfirst : nextCount s.params true 0 = 1 := nextCount_true_of_lt (by omega)
    have hsecond : nextCount s.params true 1 = 2 := nextCount_true_of_lt (by omega)
    exact ⟨_, _, exec_tick s, exec_tick _, by simp [hcnt, hraw, hfirst], by simp [hcnt, hraw, hfirst, hsecond]⟩

/-- Settles O17: RDTRIG's answer is taken from one state, before or after TICK's one update of the pair. -/
theorem snapshotNeverTorn : Obligations.SnapshotNeverTorn := by
  intro s
  have hold := congrArg (andThen · (exec .tick)) (exec_rdtrig s)
  have hnew := congrArg (andThen · (exec .rdtrig)) (exec_tick s)
  exact ⟨_, _, _, exec_tick s, hold.trans (exec_tick _), hnew.trans (exec_rdtrig _),
    rfl, rfl, rfl, rfl, rfl, rfl⟩

/-- Settles O46: a step takes the turn, and it can take an item only from the agent whose turn it is. -/
theorem agentsKeepTheirOrder : Obligations.AgentsKeepTheirOrder := by
  intro s t a ts hs hstep
  refine ⟨?_, fun b hb => ?_, ?_⟩
  · obtain ⟨t', ht', ⟨hnone, -⟩ | ⟨x, hx⟩⟩ := step_schedule s
    · cases hnone.symm.trans hs
    · cases ht'.symm.trans hstep
      cases hx.symm.trans hs
      rfl
  · obtain hsame | ⟨⟨ts', hs'⟩, -⟩ := step_queue hstep b
    · exact hsame
    · cases hs'.symm.trans hs
      exact absurd rfl hb
  · exact (step_items hstep a).imp_right And.right

end Sys2Proof.Machine
end

section
/-!
The elements of a 16-bit asset (20_memory.md R33).
-/

namespace Sys2Proof.Machine

/-- Element `i` is made of the bytes at the places `2i` and `2i + 1`, in either byte order. -/
theorem elementsOfBytes_getElem? (o : ByteOrder) (bytes : List Byte) (i : Nat) (h : 2 * i + 1 < bytes.length) :
    (elementsOfBytes o bytes)[i]? = some (elementOfBytes o bytes[2 * i] bytes[2 * i + 1]) := by
  induction bytes using elementsOfBytes.induct generalizing i with
  | case1 first second rest ih =>
    cases i with
    | zero => rfl
    | succ i => exact ih i (by simp only [List.length_cons] at h; omega)
  | case2 last => simp at h
  | case3 => simp at h

/-- Settles O50: the two orders are the two ways to join the element's bytes. -/
theorem elementByteOrder : Obligations.ElementByteOrder := fun bytes i h =>
  ⟨elementsOfBytes_getElem? .little bytes i h, elementsOfBytes_getElem? .big bytes i h⟩

end Sys2Proof.Machine
end

section
/-!
The round trip of the command word (30_encoding.md R54, R55, R59): the decoder answers an operation exactly when it is
well-formed and the word is the operation's own.
-/

namespace Sys2Proof

theorem Instr.legalDiv_iff {d : Div} : Instr.legalDiv d = true ↔ 1 ≤ d.toNat ∧ d.toNat ≤ 8 := by
  simp [Instr.legalDiv]

/-- The legal divisors are those that pass the decoder's range test (R57 (d)). -/
theorem Instr.legalDiv_iff_ne_zero {d : Div} : Instr.legalDiv d = true ↔ d ≠ 0 ∧ d.toNat ≤ 8 := by
  rw [Instr.legalDiv_iff]; bv_omega

@[simp] theorem high_of_setWidth_byte (b : Byte) : (b.setWidth 16).extractLsb' 8 8 = 0 := by
  ext i hi; simp

@[simp] theorem low_of_setWidth_byte (b : Byte) : (b.setWidth 16).extractLsb' 0 8 = b := by
  ext i hi; simp [BitVec.getLsbD_eq_getElem hi]; omega

/-- A CONV8 `DATA` field whose high half is 0 is its low half, zero-extended. -/
theorem setWidth_low_of_high_eq_zero {x : Sample} (h : x.extractLsb' 8 8 = 0) :
    (x.extractLsb' 0 8).setWidth 16 = x := by
  calc (x.extractLsb' 0 8).setWidth 16
    _ = 0#8 ++ x.extractLsb' 0 8 := by rw [BitVec.setWidth_eq_append (by decide)]; rfl
    _ = x.extractLsb' 8 8 ++ x.extractLsb' 0 8 := by rw [h]; rfl
    _ = x := BitVec.extractLsb'_append_extractLsb'

/-- The fields that are read as CONV8 (R52, R54). -/
theorem decodeFields_of_conv8 {f : CmdFields} (hop : f.op = 0x8) (hrsv : f.rsv = 0)
    (hdiv : Instr.legalDiv f.div = true) (hhigh : f.data.extractLsb' 8 8 = 0) :
    decodeFields f = .ok (.conv8 f.div (stereoOfBit f.st) (f.data.extractLsb' 0 8)) := by
  simpa [decodeFields, decodeConv8, hop, hrsv, hhigh] using Instr.legalDiv_iff_ne_zero.mp hdiv

/-- The fields that are read as CONV16 (R52, R54). -/
theorem decodeFields_of_conv16 {f : CmdFields} (hop : f.op = 0x9) (hrsv : f.rsv = 0)
    (hdiv : Instr.legalDiv f.div = true) :
    decodeFields f = .ok (.conv16 f.div (stereoOfBit f.st) f.data) := by
  simpa [decodeFields, decodeConv16, hop, hrsv] using Instr.legalDiv_iff_ne_zero.mp hdiv

/-- The fields of a well-formed operation are read back as that operation. -/
theorem decodeFields_fieldsOf {i : Instr} (h : i.wellFormed = true) : decodeFields (fieldsOf i) = .ok i := by
  cases i with
  | tick => rfl
  | rdtrig => rfl
  | volrd => rfl
  | conv8 d st b =>
    have hdecode := decodeFields_of_conv8 (f := fieldsOf (.conv8 d st b)) rfl rfl h (high_of_setWidth_byte b)
    simpa [fieldsOf] using hdecode
  | conv16 d st x =>
    have hdecode := decodeFields_of_conv16 (f := fieldsOf (.conv16 d st x)) rfl rfl h
    simpa [fieldsOf] using hdecode

/-- An operation that is read from fields is well-formed, and the fields are its own. -/
theorem fieldsOf_of_decodeFields {f : CmdFields} {i : Instr} (h : decodeFields f = .ok i) :
    i.wellFormed = true ∧ fieldsOf i = f := by
  obtain ⟨op, div, rsv, st, data⟩ := f
  obtain ⟨rfl, ⟨rfl, rfl, rfl, rfl, rfl⟩ | ⟨rfl, rfl, rfl, rfl, rfl⟩ | ⟨rfl, rfl, rfl, rfl, rfl⟩ |
    ⟨rfl, hne, hle, hhigh, rfl⟩ | ⟨rfl, hne, hle, rfl⟩⟩ := decodeFields_ok h
  · exact ⟨rfl, rfl⟩
  · exact ⟨rfl, rfl⟩
  · exact ⟨rfl, rfl⟩
  · refine ⟨Instr.legalDiv_iff_ne_zero.mpr ⟨hne, hle⟩, ?_⟩
    simp only [fieldsOf, bitOfStereo_stereoOfBit, setWidth_low_of_high_eq_zero hhigh]
  · refine ⟨Instr.legalDiv_iff_ne_zero.mpr ⟨hne, hle⟩, ?_⟩
    simp only [fieldsOf, bitOfStereo_stereoOfBit]

/-- The decoder answers an operation exactly when it is well-formed and the word is its own. -/
theorem decode_eq_ok_iff {w : Word} {i : Instr} : decode w = .ok i ↔ i.wellFormed = true ∧ encode i = w := by
  constructor
  · intro h
    obtain ⟨hwf, hfields⟩ := fieldsOf_of_decodeFields h
    exact ⟨hwf, (eq_encode_of_splitWord hfields.symm).symm⟩
  · rintro ⟨hwf, rfl⟩
    rw [decode, splitWord_encode, decodeFields_fieldsOf hwf]

/-- Settles O1: the word's fields are the operation's own, and the decoder reads them back. -/
theorem decodeOfEncode : Obligations.DecodeOfEncode := fun _ hwf => decode_eq_ok_iff.mpr ⟨hwf, rfl⟩

/-- Settles O2: the decoder answers an operation only on that operation's own fields. -/
theorem encodeOfDecode : Obligations.EncodeOfDecode := fun _ _ h => decode_eq_ok_iff.mp h

/-- Settles O6, by running the decoder on each word. -/
theorem specWordsDecode : Obligations.SpecWordsDecode := by
  unfold Obligations.SpecWordsDecode
  decide

end Sys2Proof
end

section
/-!
The decoder against the opcode map (30_encoding.md R54) and against the conditions (a) to (e) of R57.
-/

namespace Sys2Proof

/-- Where a mask keeps every bit of a slice, the masked word shows the slice. -/
theorem slice_of_masked {w mask pattern : Word} (h : w &&& mask = pattern) {start len : Nat}
    (hmask : mask.extractLsb' start len = BitVec.allOnes len) :
    w.extractLsb' start len = pattern.extractLsb' start len := by
  rw [← h, BitVec.extractLsb'_and, hmask, BitVec.and_allOnes]

/-- A row without operands is selected by its own word alone. -/
theorem eq_of_full_mask {w pattern : Word} (h : w &&& 0xFFFFFFFF = pattern) : w = pattern :=
  BitVec.and_allOnes.symm.trans h

/-- The word of a well-formed operation stands in the operation's row. -/
theorem selectsRow_encode {i : Instr} (h : i.wellFormed = true) : selectsRow (encode i) (rowOf i) = true := by
  cases i with
  | tick => exact Laws.EncodedRow.tick h
  | rdtrig => exact Laws.EncodedRow.rdtrig h
  | volrd => exact Laws.EncodedRow.volrd h
  | conv8 d st b => exact Laws.EncodedRow.conv8 d st b h
  | conv16 d st x => exact Laws.EncodedRow.conv16 d st x h

/-- A word that the decoder lets through stands in the row of its operation. -/
theorem selectsRow_of_decode {w : Word} {i : Instr} (h : decode w = .ok i) : selectsRow w (rowOf i) = true := by
  obtain ⟨hwf, rfl⟩ := decode_eq_ok_iff.mp h
  exact selectsRow_encode hwf

/-- A word that stands in a row of the map is decoded to an operation of that row. -/
theorem decode_of_selectsRow {w : Word} {r : OpcodeRow} (hr : r ∈ opcodeRows) (h : selectsRow w r = true) :
    ∃ i, decode w = .ok i ∧ rowOf i = r := by
  simp only [opcodeRows, List.mem_cons, List.not_mem_nil, or_false] at hr
  obtain rfl | rfl | rfl | rfl | rfl := hr <;>
    simp only [selectsRow, rowOf, Bool.and_eq_true, beq_iff_eq, Bool.not_true, Bool.false_or] at h <;>
    obtain ⟨hw, hdiv⟩ := h
  · cases eq_of_full_mask hw
    exact ⟨.tick, by decide, rfl⟩
  · cases eq_of_full_mask hw
    exact ⟨.rdtrig, by decide, rfl⟩
  · cases eq_of_full_mask hw
    exact ⟨.volrd, by decide, rfl⟩
  · have hop : w.extractLsb' 28 4 = 0x8 := slice_of_masked hw (by decide)
    have hrsv : w.extractLsb' 17 7 = 0 := slice_of_masked hw (by decide)
    have hhigh : (w.extractLsb' 0 16).extractLsb' 8 8 = 0 := by
      rw [BitVec.extractLsb'_extractLsb'_of_le (by decide)]
      exact slice_of_masked hw (by decide)
    exact ⟨_, decodeFields_of_conv8 (f := splitWord w) hop hrsv hdiv hhigh, rfl⟩
  · have hop : w.extractLsb' 28 4 = 0x9 := slice_of_masked hw (by decide)
    have hrsv : w.extractLsb' 17 7 = 0 := slice_of_masked hw (by decide)
    exact ⟨_, decodeFields_of_conv16 (f := splitWord w) hop hrsv hdiv, rfl⟩

/-- Settles O3: the decoder and the map select alike, and a word decodes to one operation, which has one row. -/
theorem decodeFollowsOpcodeMap : Obligations.DecodeFollowsOpcodeMap := by
  refine ⟨fun w r hr => ⟨decode_of_selectsRow hr, ?_⟩, fun w r r' hr hr' h h' => ?_⟩
  · rintro ⟨i, hi, rfl⟩
    exact selectsRow_of_decode hi
  · obtain ⟨i, hi, rfl⟩ := decode_of_selectsRow hr h
    obtain ⟨i', hi', rfl⟩ := decode_of_selectsRow hr' h'
    cases hi.symm.trans hi'
    rfl

/-- Why the decoder refuses, field by field. -/
theorem decodeFields_error {f : CmdFields} {e : InvalidReason} (h : decodeFields f = .error e) :
    (f.op ≠ 0x1 ∧ f.op ≠ 0x2 ∧ f.op ≠ 0x3 ∧ f.op ≠ 0x8 ∧ f.op ≠ 0x9) ∨
      f.rsv ≠ 0 ∨
      ((f.op = 0x1 ∨ f.op = 0x2 ∨ f.op = 0x3) ∧ ¬(f.div = 0 ∧ f.st = 0 ∧ f.data = 0)) ∨
      ((f.op = 0x8 ∨ f.op = 0x9) ∧ (f.div = 0 ∨ 8 < f.div.toNat)) ∨
      (f.op = 0x8 ∧ f.data.extractLsb' 8 8 ≠ 0) := by
  unfold decodeFields decodePlain decodeConv8 decodeConv16 at h
  split_ifs at h <;> simp_all

/-- The fields below `OP` lie in the word's low 28 bits. -/
theorem fields_eq_zero_of_low_eq_zero {w : Word} (h : w.extractLsb' 0 28 = 0) :
    (splitWord w).div = 0 ∧ (splitWord w).st = 0 ∧ (splitWord w).data = 0 := by
  have hslice {start len : Nat} (hle : start + len ≤ 28) : w.extractLsb' start len = 0 := by
    rw [← BitVec.extractLsb'_extractLsb'_of_le hle, h]
    exact BitVec.extractLsb'_zero
  exact ⟨hslice (by decide), hslice (by decide), hslice (by decide)⟩

/-- A word that the decoder refuses meets a condition of R57. -/
theorem invalidWord_of_decode_error {w : Word} {e : InvalidReason} (h : decode w = .error e) :
    Machine.InvalidWord w := by
  obtain hop | hrsv | ⟨hop, hused⟩ | ⟨hop, hdiv⟩ | ⟨hop, hhigh⟩ := decodeFields_error h
  · exact .inl hop
  · exact .inr (.inl hrsv)
  · exact .inr (.inr (.inl ⟨hop, fun hlow => hused (fields_eq_zero_of_low_eq_zero hlow)⟩))
  · exact .inr (.inr (.inr (.inl ⟨hop, hdiv.imp_left fun h0 => congrArg BitVec.toNat h0⟩)))
  · have hbits : (splitWord w).data.extractLsb' 8 8 = w.extractLsb' 8 8 :=
      BitVec.extractLsb'_extractLsb'_of_le (by decide)
    exact .inr (.inr (.inr (.inr ⟨hop, hbits ▸ hhigh⟩)))

/-- The decoder refuses exactly the words of R57. -/
theorem invalidWord_iff_decode_error {w : Word} : Machine.InvalidWord w ↔ ∃ e, decode w = .error e := by
  refine ⟨fun h => ?_, fun ⟨_, he⟩ => invalidWord_of_decode_error he⟩
  cases hd : decode w with
  | ok i => exact absurd h (Machine.not_invalidWord_of_decode hd)
  | error e => exact ⟨e, rfl⟩

/-- Settles O4: the refused words are those of R57, and `invalid()` answers them. -/
theorem invalidRequestAnswer : Obligations.InvalidRequestAnswer := fun _ =>
  ⟨invalidWord_iff_decode_error, Machine.runWord_of_invalidWord⟩

end Sys2Proof
end

section
/-!
How many command words are valid (30_encoding.md R56): a row's words are the images of its operands under the encoder.
-/

namespace Sys2Proof

/-- The operands of a converter row: a legal divisor, the flag `ST`, and any element. -/
def legalOperands (α : Type) : Set (Div × Bool × α) := {d | Instr.legalDiv d = true} ×ˢ Set.univ

theorem mem_legalOperands {α : Type} {t : Div × Bool × α} :
    t ∈ legalOperands α ↔ Instr.legalDiv t.1 = true := by
  simp [legalOperands]

theorem ncard_legalDiv : Set.ncard {d : Div | Instr.legalDiv d = true} = 8 := by
  rw [Set.ncard_eq_toFinset_card']; decide

theorem natCard_bitVec (n : Nat) : Nat.card (BitVec n) = 2 ^ n := by
  rw [Nat.card_eq_fintype_card, ← FinEnum.card_eq_fintypeCard, FinEnum.card_bitVec]

/-- 8 divisors, 2 values of `ST`, and the elements. -/
theorem ncard_legalOperands (n : Nat) : (legalOperands (BitVec n)).ncard = 8 * (2 * 2 ^ n) := by
  rw [legalOperands, Set.ncard_prod, ncard_legalDiv, Set.ncard_univ, Nat.card_prod, natCard_bitVec,
    Nat.card_eq_fintype_card, Fintype.card_bool]

/-- An operation without operands has one word. -/
theorem ncard_words_of_wellFormed {i : Instr} (h : i.wellFormed = true) :
    Set.ncard {w : Word | decode w = .ok i} = 1 := by
  have hset : {w : Word | decode w = .ok i} = {encode i} :=
    Set.ext fun w => decode_eq_ok_iff.trans ((and_iff_right h).trans eq_comm)
  rw [hset, Set.ncard_singleton]

/-- A family of operations has as many words as it has well-formed members. -/
theorem ncard_words_of_family {α : Type} {op : α → Instr} (hop : Function.Injective op) :
    Set.ncard {w : Word | ∃ t, decode w = .ok (op t)} = Set.ncard {t | (op t).wellFormed = true} := by
  have himage : {w : Word | ∃ t, decode w = .ok (op t)} = (encode ∘ op) '' {t | (op t).wellFormed = true} := by
    ext w; simp [decode_eq_ok_iff]
  rw [himage]
  refine Set.InjOn.ncard_image fun t ht u hu (h : encode (op t) = encode (op u)) => hop ?_
  have hdecode : decode (encode (op t)) = .ok (op u) := decode_eq_ok_iff.mpr ⟨hu, h.symm⟩
  exact Except.ok.inj ((decodeOfEncode _ ht).symm.trans hdecode)

/-- CONV8 of its operands. -/
def conv8Of (t : Div × Bool × Byte) : Instr := .conv8 t.1 t.2.1 t.2.2

/-- CONV16 of its operands. -/
def conv16Of (t : Div × Bool × Sample) : Instr := .conv16 t.1 t.2.1 t.2.2

theorem conv8Of_injective : Function.Injective conv8Of := by
  rintro ⟨d, st, b⟩ ⟨d', st', b'⟩ h
  simpa [conv8Of] using h

theorem conv16Of_injective : Function.Injective conv16Of := by
  rintro ⟨d, st, x⟩ ⟨d', st', x'⟩ h
  simpa [conv16Of] using h

theorem setOf_conv8Of_wellFormed : {t | (conv8Of t).wellFormed = true} = legalOperands Byte :=
  Set.ext fun _ => mem_legalOperands.symm

theorem setOf_conv16Of_wellFormed : {t | (conv16Of t).wellFormed = true} = legalOperands Sample :=
  Set.ext fun _ => mem_legalOperands.symm

theorem ncard_conv8_words : Set.ncard {w : Word | ∃ d st b, decode w = .ok (.conv8 d st b)} = 4096 := by
  have hfamily := ncard_words_of_family conv8Of_injective
  rw [setOf_conv8Of_wellFormed, ncard_legalOperands] at hfamily
  simpa [conv8Of] using hfamily

theorem ncard_conv16_words :
    Set.ncard {w : Word | ∃ d st x, decode w = .ok (.conv16 d st x)} = 1048576 := by
  have hfamily := ncard_words_of_family conv16Of_injective
  rw [setOf_conv16Of_wellFormed, ncard_legalOperands] at hfamily
  simpa [conv16Of] using hfamily

/-- The well-formed operations, row by row. -/
theorem setOf_wellFormed : {i : Instr | i.wellFormed = true} =
    {.tick, .rdtrig, .volrd} ∪ (conv8Of '' legalOperands Byte ∪ conv16Of '' legalOperands Sample) := by
  ext i
  cases i <;> simp [Instr.wellFormed, conv8Of, conv16Of, mem_legalOperands]

theorem ncard_setOf_wellFormed : Set.ncard {i : Instr | i.wellFormed = true} = 1052675 := by
  have hplain : Set.ncard {Instr.tick, .rdtrig, .volrd} = 3 :=
    Set.ncard_eq_three.mpr ⟨_, _, _, by decide, by decide, by decide, rfl⟩
  have hconv : Disjoint (conv8Of '' legalOperands Byte) (conv16Of '' legalOperands Sample) := by
    rw [Set.disjoint_left]
    rintro _ ⟨t, -, rfl⟩ ⟨u, -, h⟩
    simp [conv8Of, conv16Of] at h
  have hrest : Disjoint {Instr.tick, .rdtrig, .volrd}
      (conv8Of '' legalOperands Byte ∪ conv16Of '' legalOperands Sample) := by
    rw [Set.disjoint_right]
    rintro _ (⟨t, -, rfl⟩ | ⟨t, -, rfl⟩) <;> simp [conv8Of, conv16Of]
  rw [setOf_wellFormed, Set.ncard_union_eq hrest, Set.ncard_union_eq hconv, hplain,
    Set.ncard_image_of_injective _ conv8Of_injective, Set.ncard_image_of_injective _ conv16Of_injective,
    ncard_legalOperands, ncard_legalOperands]
  norm_num

theorem ncard_valid_words : Set.ncard {w : Word | ∃ i, decode w = .ok i} = 1052675 :=
  (ncard_words_of_family Function.injective_id).trans ncard_setOf_wellFormed

/-- The refused words are the rest of the 2^32. -/
theorem ncard_refused_words : Set.ncard {w : Word | ∃ e, decode w = .error e} = 2 ^ 32 - 1052675 := by
  have hcompl : {w : Word | ∃ e, decode w = .error e} = {w : Word | ∃ i, decode w = .ok i}ᶜ := by
    ext w
    cases hd : decode w <;> simp [hd]
  rw [hcompl, Set.ncard_compl, ncard_valid_words, natCard_bitVec]

/-- Settles O5: each row's words are counted by its operands, and the rows together by the well-formed operations. -/
theorem validWordCount : Obligations.ValidWordCount :=
  ⟨ncard_words_of_wellFormed rfl, ncard_words_of_wellFormed rfl, ncard_words_of_wellFormed rfl,
    ncard_conv8_words, ncard_conv16_words, ncard_valid_words, ncard_refused_words⟩

end Sys2Proof
end

section
/-!
Requests at the port: an invalid word, one iteration of WAITTRIG, and the refill listings (30_encoding.md R57, R60,
R61).
-/

namespace Sys2Proof.Machine

/-- Settles O37: the agent's turn brings the word, and an invalid word is answered by `invalid()`. -/
theorem stepAnswersInvalidWord : Obligations.StepAnswersInvalidWord := by
  intro s a ts w p q hs hq hw u
  refine ⟨?_, ?_, ?_, ?_⟩
  · have hresponses : u.responses = s.responses := by simp [u]
    rw [step_of_word hs hq, runWord_of_invalidWord hw, ← hresponses]; rfl
  all_goals simp [u]

@[simp] theorem waitOver_respond (g : TrigStatus) (r : Response) (s : State) :
    waitOver g (respond r s) = (r.st == statusBit g) := rfl

/-- The coding of the status tells the two values apart (R12). -/
theorem statusBit_inj {st g : TrigStatus} : statusBit st = statusBit g ↔ st = g := by
  cases st <;> cases g <;> decide

/-- Settles O21: the RDTRIG answers the status, and the request is put back unless that is the target. -/
theorem waitTrigIteration : Obligations.WaitTrigIteration := by
  intro s a g ts q hs hq
  have hstep := congrArg serve (takeTurn_wait hs hq)
  rw [serve_wait] at hstep
  refine ⟨_, hstep, by simp, by simp, by simp, by simp, by simp, fun b hb => ?_, by simp, fun hg => ?_, fun hg => ?_⟩
  · obtain h | ⟨h, -⟩ := queueOf_goOnWaiting a b g (respond _ (setQueue a q (setSchedule ts s)))
    · rw [h, queueOf_respond, queueOf_setQueue_other hb, queueOf_setSchedule]
    · exact absurd h hb
  · simp [goOnWaiting, hg]
  · simp [goOnWaiting, statusBit_inj, hg]

/-- The stream after one more answer: its samples come last (R18, R32). -/
@[simp] theorem outputStream_respond (r : Response) (s : State) :
    (respond r s).outputStream = s.outputStream ++ r.samples := by
  simp [State.outputStream]

/-- An operation that only answers, issued by the host: one more answer, one request less. -/
theorem step_of_host_operation {s : State} {ts p q i r} (hs : nextTurn s = some (.agent .host, ts))
    (hq : nextRequest .host s = some (.word (encode i) p, q)) (hwf : i.wellFormed = true)
    (hexec : ∀ s, exec i s = .next (respond r s)) :
    ∃ t, step s = .next t ∧ t.hostQueue = q ∧ t.schedule = ts ∧
      t.outputStream = s.outputStream ++ r.samples ∧ t.cnt = s.cnt ∧ t.status = s.status := by
  have hstep : step s = .next (respond r (setPins p (setQueue .host q (setSchedule ts s)))) := by
    rw [step_of_word hs hq, runWord_of_decode (decodeOfEncode i hwf), hexec]
  exact ⟨_, hstep, rfl, rfl, outputStream_respond _ _, rfl, rfl⟩

/-- Operations that only answer, issued by the host in a row: their samples come out in order, the filter stands, and
the host's list is used up to what follows them (R61). -/
theorem runSteps_of_host_listing {α : Type} {op : α → Instr} {answer : α → Response} (p : Pins)
    (hwf : ∀ x, (op x).wellFormed = true) (hexec : ∀ x s, exec (op x) s = .next (respond (answer x) s))
    {hq : Feed Request} {ts : Feed Turn} (xs : List α) (s : State)
    (hqueue : s.hostQueue = hq.prepend (requestsOf p (xs.map op)))
    (hturns : s.schedule = ts.prepend (List.replicate xs.length (.agent .host))) :
    ∃ t, runSteps xs.length s = .next t ∧
      t.outputStream = s.outputStream ++ xs.flatMap (fun x => (answer x).samples) ∧
      t.cnt = s.cnt ∧ t.status = s.status ∧ t.hostQueue = hq := by
  induction xs generalizing s with
  | nil => exact ⟨s, rfl, by simp, rfl, rfl, hqueue⟩
  | cons x xs ih =>
    have hturn : nextTurn s = some (.agent .host, ts.prepend (List.replicate xs.length (.agent .host))) := by
      rw [nextTurn, hturns]; rfl
    have hrequest : nextRequest .host s =
        some (.word (encode (op x)) p, hq.prepend (requestsOf p (xs.map op))) := by
      rw [nextRequest, queueOf, hqueue]; rfl
    obtain ⟨u, hstep, huqueue, huturns, hustream, hucnt, hustatus⟩ :=
      step_of_host_operation hturn hrequest (hwf x) (hexec x)
    obtain ⟨t, hrun, hstream, hcnt, hstatus, hrest⟩ := ih u huqueue huturns
    refine ⟨t, ?_, ?_, hcnt.trans hucnt, hstatus.trans hustatus, hrest⟩
    · rw [List.length_cons, runSteps, hstep, andThen_next, hrun]
    · rw [hstream, hustream, List.flatMap_cons, List.append_assoc]

/-- A conversion by a legal divisor with `ST = 0` gives its pair of equal samples (R102). -/
theorem samples_emitResponse_tdiv (n : Int) (d : Nat) : (emitResponse false (tdiv n d)).samples =
    [BitVec.ofInt 16 (Int.tdiv n d), BitVec.ofInt 16 (Int.tdiv n d)] := by
  rw [← tdiv_eq_int_tdiv]; rfl

/-- Settles O49: each conversion of the listing answers its pair in every state. -/
theorem refillStream : Obligations.RefillStream := by
  intro d p s hq ts hlo hhi
  have hlegal : Instr.legalDiv d = true := Instr.legalDiv_iff.mpr ⟨hlo, hhi⟩
  refine ⟨fun bs hqueue hturns => ?_, fun xs hqueue hturns => ?_⟩
  · have hexec (b : Byte) (s : State) : exec (.conv8 d false b) s =
        .next (respond (emitResponse false (tdiv (recentre b) d.toNat)) s) :=
      congrArg Host.Outcome.next (convert_of_legal hlo hhi _ _ s)
    have h := runSteps_of_host_listing (op := fun b => .conv8 d false b) p (fun _ => hlegal) hexec bs s hqueue hturns
    simpa only [samples_emitResponse_tdiv, recentre] using h
  · have hexec (x : Sample) (s : State) : exec (.conv16 d false x) s =
        .next (respond (emitResponse false (tdiv (signed16 x) d.toNat)) s) :=
      congrArg Host.Outcome.next (convert_of_legal hlo hhi _ _ s)
    have h := runSteps_of_host_listing (op := fun x => .conv16 d false x) p (fun _ => hlegal) hexec xs s hqueue hturns
    simpa only [samples_emitResponse_tdiv, signed16] using h

end Sys2Proof.Machine
end

section
/-!
CONV16's sample (42_format_converter.md R101, R104): the quotient by a legal divisor, its magnitude, and that 16 bits
hold it.
-/

namespace Sys2Proof.Machine

/-- CONV16 by a legal divisor emits the quotient (R101). -/
theorem exec_conv16_of_legal {d : Div} (hlo : 1 ≤ d.toNat) (hhi : d.toNat ≤ 8) (stereo : Bool) (x : Sample)
    (s : State) : exec (.conv16 d stereo x) s =
      .next (respond (emitResponse stereo (tdiv (signed16 x) d.toNat)) s) :=
  congrArg Host.Outcome.next (convert_of_legal hlo hhi _ _ s)

@[simp] theorem emitResponse_a (stereo : Bool) (y : Int) : (emitResponse stereo y).a = bits16 y := by
  cases stereo <;> rfl

/-- The magnitude of a quotient is the quotient of the magnitude (R104). -/
theorem natAbs_tdiv (n : Int) (d : Nat) : (tdiv n d).natAbs = n.natAbs / d := by
  rw [tdiv_eq_int_tdiv, Int.natAbs_tdiv, Int.natAbs_natCast]; rfl

/-- A quotient lies between 0 and the dividend. -/
theorem tdiv_between (n : Int) (d : Nat) : min n 0 ≤ tdiv n d ∧ tdiv n d ≤ max n 0 := by
  have hquot {m : Int} (hm : 0 ≤ m) : 0 ≤ m / (d : Int) ∧ m / (d : Int) ≤ m :=
    ⟨Int.ediv_nonneg hm (Int.natCast_nonneg d), Int.ediv_le_self _ hm⟩
  unfold tdiv
  split
  · next hn => have h := hquot hn; omega
  · next hn => have h := hquot (m := -n) (by omega); omega

/-- CONV16's quotient loses nothing in 16 bits. -/
theorem bits16_tdiv_signed16_toInt (x : Sample) (d : Nat) :
    (bits16 (tdiv (signed16 x) d)).toInt = tdiv (signed16 x) d := by
  have hx := signed16_range x
  have hq := tdiv_between (signed16 x) d
  exact bits16_toInt (by omega) (by omega)

/-- The magnitude of CONV16's sample (R101, R104). -/
theorem natAbs_bits16_tdiv_signed16 (x : Sample) (d : Nat) :
    (bits16 (tdiv (signed16 x) d)).toInt.natAbs = x.toInt.natAbs / d := by
  rw [bits16_tdiv_signed16_toInt, natAbs_tdiv, signed16]

end Sys2Proof.Machine
end

section
/-!
The Volume Mapper (40_volume_mapper.md R70, R71): VOLRD's divisor is the option value plus 1, so it is a legal divisor
of the converter, and a larger one leaves a smaller quotient (42_format_converter.md R104).
-/

namespace Sys2Proof.Machine

@[simp] theorem lastResponse_respond (r : Response) (s : State) : lastResponse (respond r s) = some r := rfl

/-- Where an operation only answers, what its latest response is said to satisfy is said of that answer. -/
theorem exists_lastResponse_iff {o : Host.Outcome State Fault Refusal} {r : Response} {s : State}
    (h : o = .next (respond r s)) {P : Response → Prop} :
    (∃ t q, o = .next t ∧ lastResponse t = some q ∧ P q) ↔ P r := by
  subst h
  simp

/-- VOLRD's outcome (R70). -/
theorem exec_volrd (s : State) : exec .volrd s = .next (respond (volrdResponse s.pins.volOpt) s) := rfl

theorem bitNat_eq_toNat (b : Bool) : bitNat b = b.toNat := by
  cases b <;> rfl

/-- The clamp of R70 is never taken: the sum is at least 1. -/
theorem volumeDivisor_eq (o2 o1 o0 : Nat) : volumeDivisor o2 o1 o0 = 4 * o2 + 2 * o1 + o0 + 1 := by
  simp [volumeDivisor]

/-- VOLRD's response by the weights of the three pins (R70). -/
theorem volrdResponse_eq (o : BitVec 3) : volrdResponse o =
    { div := BitVec.ofNat 4
        (4 * (o.getLsbD 2).toNat + 2 * (o.getLsbD 1).toNat + (o.getLsbD 0).toNat + 1) } := by
  simp only [volrdResponse, volumeDivisor_eq, bitNat_eq_toNat]

/-- The weights 4, 2, 1 are those of the option value's own bits (R16). -/
theorem volOpt_toNat_eq (o : BitVec 3) :
    o.toNat = 4 * (o.getLsbD 2).toNat + 2 * (o.getLsbD 1).toNat + (o.getLsbD 0).toNat := by
  revert o; decide

/-- The divisor is the option value plus 1 (R71). -/
theorem volrdResponse_div_toNat (o : BitVec 3) : (volrdResponse o).div.toNat = o.toNat + 1 := by
  have hlt := o.isLt
  rw [volrdResponse_eq, ← volOpt_toNat_eq, BitVec.toNat_ofNat]
  omega

/-- VOLRD gives a legal divisor of the converter (R51, R70). -/
theorem volrdResponse_div_legal (o : BitVec 3) :
    1 ≤ (volrdResponse o).div.toNat ∧ (volrdResponse o).div.toNat ≤ 8 := by
  have hlt := o.isLt
  rw [volrdResponse_div_toNat]
  omega

/-- A divisor comes from the option value one below it. -/
theorem volrdResponse_div_eq_iff {d : Div} (hlo : 1 ≤ d.toNat) (hhi : d.toNat ≤ 8) (o : BitVec 3) :
    (volrdResponse o).div = d ↔ o = BitVec.ofNat 3 (d.toNat - 1) := by
  have hlt := o.isLt
  rw [← BitVec.toNat_inj, ← BitVec.toNat_inj, volrdResponse_div_toNat, BitVec.toNat_ofNat]
  omega

/-- With VOLRD's `OP` every other field must be 0 (R57 (c)). -/
theorem invalidWord_of_volrd_op {w : Word} (hop : w.extractLsb' 28 4 = 0x3) (hne : w ≠ 0x30000000) :
    InvalidWord w := by
  refine .inr (.inr (.inl ⟨.inr (.inr hop), fun hlow => hne ?_⟩))
  calc w
    _ = w.extractLsb' 28 4 ++ w.extractLsb' 0 28 := (BitVec.extractLsb'_append_extractLsb' (w := 4) (len := 28)).symm
    _ = 0x30000000 := by rw [hop, hlow]; rfl

/-- Settles O7: the response by its weights, `OP` with its one word, and the divisor as the option value plus 1. -/
theorem volrdResult : Obligations.VolrdResult := by
  refine ⟨fun s => ?_, fun s w hop => ?_, fun d hlo hhi s => ?_⟩
  · rw [exec_volrd, volrdResponse_eq]; rfl
  · split
    · next hw =>
      cases hw
      exact runWord_of_decode (decodeOfEncode .volrd rfl) s
    · next hw => exact runWord_of_invalidWord (invalidWord_of_volrd_op hop hw) s
  · simp only [exists_lastResponse_iff (exec_volrd _), setPins_pins, volrdResponse_div_eq_iff hlo hhi]
    exact existsUnique_eq

/-- Settles O8: each row lists the weighted sum of its pins plus 1, which is the option value plus 1. -/
theorem volumeTable : Obligations.VolumeTable := by
  intro s row hrow hpins
  have hsum : row.2 = 4 * row.1.1.toNat + 2 * row.1.2.1.toNat + row.1.2.2.toNat + 1 := by
    clear hpins
    revert row
    decide
  have hrow2 : row.2 = s.pins.volOpt.toNat + 1 := by
    rw [hsum, ← hpins, volOpt_toNat_eq]
  rw [exists_lastResponse_iff (exec_volrd s), hrow2]
  exact ⟨rfl, volrdResponse_div_toNat _, volrdResponse_div_toNat _, volrdResponse_div_legal _⟩

/-- Settles O9: the divisors are the option values plus 1, and a magnitude divided by the larger is no larger. -/
theorem largerOptionIsQuieter : Obligations.LargerOptionIsQuieter := by
  intro s s' hlt x
  obtain ⟨hlo, hhi⟩ := volrdResponse_div_legal s.pins.volOpt
  obtain ⟨hlo', hhi'⟩ := volrdResponse_div_legal s'.pins.volOpt
  have hdiv : (volrdResponse s.pins.volOpt).div.toNat < (volrdResponse s'.pins.volOpt).div.toNat := by
    simpa only [volrdResponse_div_toNat, Nat.add_lt_add_iff_right] using hlt
  refine ⟨_, _, _, _, _, _, _, _, exec_volrd s, rfl, exec_volrd s', rfl, hdiv,
    exec_conv16_of_legal hlo hhi _ x s, rfl, exec_conv16_of_legal hlo' hhi' _ x s', rfl, ?_⟩
  simp only [emitResponse_a, natAbs_bits16_tdiv_signed16]
  exact Nat.div_le_div_left hdiv.le hlo

end Sys2Proof.Machine
end


section
/-!
The Trigger Debounce Filter (41_trigger_debounce.md R80 to R85): one TICK as a relation between two filters, and what
it does to the counter and to the status.
-/

namespace Sys2Proof.Machine

/-- TICK's one word has `OP = 0x1` with every other field 0; with that `OP`, no other word is valid (R57 (c), R80). -/
theorem invalidWord_of_tick_op {w : Word} (hop : w.extractLsb' 28 4 = 0x1) (hne : w ≠ tickWord) : InvalidWord w := by
  have hjoin : w.extractLsb' 28 4 ++ w.extractLsb' 0 28 = w :=
    BitVec.extractLsb'_append_extractLsb' (w := 4) (len := 28)
  refine .inr (.inr (.inl ⟨.inl hop, fun hlow => hne ?_⟩))
  rw [← hjoin, hop, hlow, tickWord]; rfl

/-- Settles O10: TICK's outcome, branch by branch of the sampled pin, and `OP` with its one word. -/
theorem tickResult : Obligations.TickResult := by
  refine ⟨fun s => ?_, fun s w hop => ?_⟩
  · rw [exec_tick]
    cases hraw : s.pins.trigRaw with
    | true => rfl
    | false => simp only [Bool.false_eq_true, if_false, Nat.max_zero]; rfl
  · split
    · next hw =>
      cases hw
      exact runWord_of_decode (decodeOfEncode .tick rfl) s
    · next hw => exact runWord_of_invalidWord (invalidWord_of_tick_op hop hw) s

/-- Settles O16: RDTRIG's outcome with the coding of R12, and its one word by the encoder. -/
theorem rdtrigResult : Obligations.RdtrigResult := by
  refine ⟨exec_rdtrig, fun w => ?_⟩
  have hword : encode .rdtrig = 0x20000000 := by decide
  rw [decode_eq_ok_iff, hword, eq_comm (b := w)]
  exact and_iff_right rfl

/-- What a TICK that samples `raw` makes of the filter (R80). -/
structure Ticked (raw : Bool) (s t : State) : Prop where
  params : t.params = s.params
  cnt : t.cnt = nextCount s.params raw s.cnt
  status : t.status = nextStatus s.params t.cnt s.status

/-- TICK samples the pin as it is. -/
theorem exec_tick_ticked (s : State) : ∃ t, exec .tick s = .next t ∧ Ticked s.pins.trigRaw s t :=
  ⟨_, exec_tick s, rfl, rfl, rfl⟩

theorem tickWith_ticked (raw : Bool) (s : State) : ∃ t, tickWith raw s = .next t ∧ Ticked raw s t :=
  ⟨_, execWith_tick _ s, rfl, rfl, rfl⟩

theorem Ticked.cnt_of_asserted {s t : State} (h : Ticked true s t) : t.cnt = min (s.cnt + 1) s.params.max := h.cnt

theorem Ticked.cnt_of_released {s t : State} (h : Ticked false s t) : t.cnt = s.cnt - 1 := h.cnt

/-- Settles O11: the saturating count up and the floored count down, each at and off its bound. -/
theorem tickCounterLaw : Obligations.TickCounterLaw := by
  intro s hmax
  obtain ⟨t, ht, hticked⟩ := exec_tick_ticked s
  refine ⟨t, ht, ?_⟩
  cases hraw : s.pins.trigRaw <;> rw [hraw] at hticked
  case true =>
    have hcnt := hticked.cnt_of_asserted
    simp only [eq_self, Bool.true_eq_false, true_and, false_and, or_false, iff_false]
    omega
  case false =>
    have hcnt := hticked.cnt_of_released
    simp only [eq_self, Bool.false_eq_true, true_and, false_and, false_or, iff_false]
    omega

/-- When the status is SET after a tick: above the band, or retained in it (R82). -/
theorem nextStatus_eq_set_iff {p : TrigParams} {c : Nat} {old : TrigStatus} :
    nextStatus p c old = .set ↔ p.lo ≤ c ∧ (p.hi < c ∨ old = .set) := by
  obtain ⟨hlo, h⟩ | ⟨hlo, hhi, h⟩ | ⟨hlo, hhi, h⟩ := nextStatus_cases p c old
  · simp [h, hlo]
  · simp [h, hlo, hhi]
  · simp [h, hlo, hhi.not_gt]

/-- When the status is CLEAR after a tick: below the band, or retained in it (R82). -/
theorem nextStatus_eq_clear_iff {p : TrigParams} {c : Nat} {old : TrigStatus} :
    nextStatus p c old = .clear ↔ c < p.lo ∨ c ≤ p.hi ∧ old = .clear := by
  obtain ⟨hlo, h⟩ | ⟨hlo, hhi, h⟩ | ⟨hlo, hhi, h⟩ := nextStatus_cases p c old
  · simp [h, hlo]
  · simp [h, hlo.not_gt, hhi.not_ge]
  · simp [h, hlo.not_gt, hhi]

theorem Ticked.status_eq_set_iff {raw : Bool} {s t : State} (h : Ticked raw s t) :
    t.status = .set ↔ s.params.lo ≤ t.cnt ∧ (s.params.hi < t.cnt ∨ s.status = .set) := by
  rw [h.status, nextStatus_eq_set_iff]

theorem Ticked.status_eq_clear_iff {raw : Bool} {s t : State} (h : Ticked raw s t) :
    t.status = .clear ↔ t.cnt < s.params.lo ∨ t.cnt ≤ s.params.hi ∧ s.status = .clear := by
  rw [h.status, nextStatus_eq_clear_iff]

/-- Settles O12: each row is one side of the status law. -/
theorem tickStatusTable : Obligations.TickStatusTable := by
  intro s ⟨_, hband, _⟩
  obtain ⟨t, ht, hticked⟩ := exec_tick_ticked s
  refine ⟨t, ht, fun h _ => hticked.status_eq_clear_iff.mpr (.inl h),
    fun h _ => hticked.status_eq_clear_iff.mpr (.inl h),
    fun _ h hold => hticked.status_eq_clear_iff.mpr (.inr ⟨h, hold⟩),
    fun h _ hold => hticked.status_eq_set_iff.mpr ⟨h, .inr hold⟩,
    fun h _ => hticked.status_eq_set_iff.mpr ⟨by omega, .inl h⟩,
    fun h _ => hticked.status_eq_set_iff.mpr ⟨by omega, .inl h⟩⟩

/-- Settles O13: the counter moves by at most one from a value that hysteresis bounds, so it passes a threshold at the
next value only. -/
theorem tickTransitions : Obligations.TickTransitions := by
  intro s ⟨⟨hlo, hband, hmax⟩, _, hset, hclear⟩
  obtain ⟨t, ht, hticked⟩ := exec_tick_ticked s
  refine ⟨t, ht, fun hold => ?_, fun hold => ?_⟩
  · have hle := hclear hold
    simp only [hticked.status_eq_set_iff, hold, reduceCtorEq, or_false]
    cases hraw : s.pins.trigRaw <;> rw [hraw] at hticked
    case true =>
      have hcnt := hticked.cnt_of_asserted
      simp only [true_and]
      omega
    case false =>
      have hcnt := hticked.cnt_of_released
      simp only [Bool.false_eq_true, false_and, iff_false]
      omega
  · have hge := hset hold
    simp only [hticked.status_eq_clear_iff, hold, reduceCtorEq, and_false, or_false]
    cases hraw : s.pins.trigRaw <;> rw [hraw] at hticked
    case true =>
      have hcnt := hticked.cnt_of_asserted
      simp only [Bool.true_eq_false, false_and, iff_false]
      omega
    case false =>
      have hcnt := hticked.cnt_of_released
      simp only [true_and]
      omega

/-- Settles O15: 241 is above `HI = 240` and below the saturation bound; 200 is not below `LO`. -/
theorem tickExamples : Obligations.TickExamples := by
  refine ⟨fun s ⟨_, hband, hmax⟩ hhi hcnt _ hraw => ?_, fun s _ hlo hold => ?_⟩
  · obtain ⟨t, ht, hticked⟩ := exec_tick_ticked s
    have hup : t.cnt = 241 := by
      rw [hticked.cnt, hraw, hcnt, nextCount_true_of_lt (by omega)]
    exact ⟨t, ht, hup, hticked.status_eq_set_iff.mpr ⟨by omega, .inl (by omega)⟩⟩
  · obtain ⟨t, ht, hticked⟩ := exec_tick_ticked s
    exact ⟨t, ht, fun hcnt => hticked.status_eq_set_iff.mpr ⟨by omega, .inr hold⟩⟩

end Sys2Proof.Machine
end

section
/-!
The filter's invariant along every run (41_trigger_debounce.md R81, R87).
-/

namespace Sys2Proof.Machine

/-- A TICK keeps the counter's bound, and establishes hysteresis by its own comparisons. -/
theorem Ticked.filterInv {raw : Bool} {s t : State} (h : Ticked raw s t) (hinv : FilterInv s) : FilterInv t := by
  obtain ⟨hlegal, hmax, -⟩ := hinv
  obtain ⟨-, hband, -⟩ := id hlegal
  rw [FilterInv, Hysteresis, h.params]
  refine ⟨hlegal, ?_, fun hset => ?_, fun hclear => ?_⟩
  · rw [h.cnt]; exact nextCount_le hmax
  · exact (h.status_eq_set_iff.mp hset).1
  · obtain hlt | ⟨hle, -⟩ := h.status_eq_clear_iff.mp hclear
    · omega
    · exact hle

/-- Settles O55: a step leaves the filter, clears it, or ticks it. -/
theorem stepKeepsInv : Obligations.StepKeepsInv := by
  intro s t hinv hstep
  obtain ⟨t', ht', hparams, hcase⟩ := step_cases s
  cases ht'.symm.trans hstep
  obtain ⟨hcnt, hstatus⟩ | ⟨-, hcnt, hstatus⟩ | ⟨w, u, -, -, hcnt, hstatus⟩ := hcase
  · rwa [FilterInv, Hysteresis, hparams, hcnt, hstatus]
  · exact filterInv_of_cleared (hparams ▸ hinv.1) hcnt hstatus
  · exact (Ticked.mk hparams hcnt hstatus).filterInv hinv

theorem filterInv_stateAt {s : State} (h : FilterInv s) (k : Nat) : FilterInv (stateAt s k) := by
  induction k with
  | zero => exact h
  | succ k ih => exact stepKeepsInv _ _ ih (step_stateAt s k)

theorem params_stateAt (s : State) (k : Nat) : (stateAt s k).params = s.params := by
  induction k with
  | zero => rfl
  | succ k ih => exact (stepKeepsParameters _ _ (step_stateAt s k)).trans ih

/-- Settles O56: the invariant holds at reset, whatever the lists are, and every step keeps it. -/
theorem hysteresisAlongEveryRun : Obligations.HysteresisAlongEveryRun := by
  intro k tq hq ts
  have hloaded : FilterInv (loaded tq hq ts) := filterInv_of_cleared config_trig_legal rfl rfl
  obtain ⟨-, hmax, hset, hclear⟩ := filterInv_stateAt hloaded k
  exact ⟨_, runSteps_eq_stateAt k _, hset, hclear, hmax, params_stateAt _ k⟩

end Sys2Proof.Machine
end

section
/-!
How many ticks a transition takes (41_trigger_debounce.md R88, 70_reset_and_hazards.md R142): a distance to the status
`g`, which a tick that samples the level of `g` brings down by one and no other tick brings down.
-/

namespace Sys2Proof.Machine

/-- The least number of ticks to the status `g`: `HI + 1 - CNT` from CLEAR to SET, `CNT - LO + 1` back (R88). -/
def ticksLeft (g : TrigStatus) (s : State) : Nat :=
  match g, s.status with
  | .set, .clear => s.params.hi + 1 - s.cnt
  | .clear, .set => s.cnt - s.params.lo + 1
  | .set, .set => 0
  | .clear, .clear => 0

theorem status_ne_set_iff {st : TrigStatus} : st ≠ .set ↔ st = .clear := by cases st <;> decide

theorem status_ne_clear_iff {st : TrigStatus} : st ≠ .clear ↔ st = .set := by cases st <;> decide

theorem ticksLeft_set {s : State} (h : s.status = .clear) : ticksLeft .set s = s.params.hi + 1 - s.cnt := by
  simp only [ticksLeft, h]

theorem ticksLeft_clear {s : State} (h : s.status = .set) : ticksLeft .clear s = s.cnt - s.params.lo + 1 := by
  simp only [ticksLeft, h]

theorem ticksLeft_of_status_eq {g : TrigStatus} {s : State} (h : s.status = g) : ticksLeft g s = 0 := by
  cases g <;> simp only [ticksLeft, h]

theorem ticksLeft_eq_zero_iff {g : TrigStatus} {s : State} (hinv : FilterInv s) :
    ticksLeft g s = 0 ↔ s.status = g := by
  obtain ⟨-, -, -, hclear⟩ := hinv
  refine ⟨fun h => ?_, ticksLeft_of_status_eq⟩
  cases g <;> cases hold : s.status
  case clear.set => simp [ticksLeft_clear hold] at h
  case set.clear => have := hclear hold; rw [ticksLeft_set hold] at h; omega
  all_goals rfl

theorem ticksLeft_congr {s t : State} (hparams : t.params = s.params) (hcnt : t.cnt = s.cnt)
    (hstatus : t.status = s.status) (g : TrigStatus) : ticksLeft g t = ticksLeft g s := by
  simp only [ticksLeft, hparams, hcnt, hstatus]

/-- SET to CLEAR takes longest from `MAX` (R86). -/
theorem ticksLeft_clear_le {s : State} (hinv : FilterInv s) :
    ticksLeft .clear s ≤ s.params.max - s.params.lo + 1 := by
  obtain ⟨-, hmax, -⟩ := hinv
  cases hold : s.status with
  | clear => simp [ticksLeft_of_status_eq hold]
  | set => rw [ticksLeft_clear hold]; omega

/-- A tick that samples the level of `g` does not leave `g`. -/
theorem Ticked.keeps_status {g : TrigStatus} {s t : State} (h : Ticked (g == .set) s t) (hinv : FilterInv s)
    (hold : s.status = g) : t.status = g := by
  obtain ⟨⟨hlo, hband, hmax⟩, -, hset, hclear⟩ := hinv
  cases g with
  | set =>
    have hge := hset hold
    have hcnt := h.cnt_of_asserted
    exact h.status_eq_set_iff.mpr ⟨by omega, .inr hold⟩
  | clear =>
    have hle := hclear hold
    have hcnt := h.cnt_of_released
    exact h.status_eq_clear_iff.mpr (.inr ⟨by omega, hold⟩)

/-- A tick that samples the level of `g` is one tick nearer to `g`, or still there. -/
theorem Ticked.ticksLeft_toward {g : TrigStatus} {s t : State} (h : Ticked (g == .set) s t) (hinv : FilterInv s) :
    ticksLeft g t = ticksLeft g s - 1 := by
  by_cases hold : s.status = g
  · rw [ticksLeft_of_status_eq hold, ticksLeft_of_status_eq (h.keeps_status hinv hold)]
  obtain ⟨⟨hlo, hband, hmax⟩, -, hset, hclear⟩ := hinv
  cases g with
  | set =>
    replace hold := status_ne_set_iff.mp hold
    have hle := hclear hold
    have hcnt := h.cnt_of_asserted
    rw [ticksLeft_set hold]
    cases hnew : t.status with
    | set =>
      have hover : s.params.hi < t.cnt := by simpa [hold] using (h.status_eq_set_iff.mp hnew).2
      rw [ticksLeft_of_status_eq hnew]; omega
    | clear =>
      have hunder := h.status_eq_clear_iff.mp hnew
      rw [ticksLeft_set hnew, h.params]; omega
  | clear =>
    replace hold := status_ne_clear_iff.mp hold
    have hge := hset hold
    have hcnt := h.cnt_of_released
    rw [ticksLeft_clear hold]
    cases hnew : t.status with
    | clear =>
      have hunder : t.cnt < s.params.lo := by simpa [hold] using h.status_eq_clear_iff.mp hnew
      rw [ticksLeft_of_status_eq hnew]; omega
    | set =>
      have hover := h.status_eq_set_iff.mp hnew
      rw [ticksLeft_clear hnew, h.params]; omega

/-- A tick that samples the other level comes no nearer to `g`. -/
theorem Ticked.ticksLeft_away {g : TrigStatus} {s t : State} (h : Ticked (!(g == .set)) s t) (hinv : FilterInv s) :
    ticksLeft g s ≤ ticksLeft g t := by
  by_cases hold : s.status = g
  · simp [ticksLeft_of_status_eq hold]
  obtain ⟨⟨hlo, hband, hmax⟩, hcmax, hset, hclear⟩ := hinv
  cases g with
  | set =>
    replace hold := status_ne_set_iff.mp hold
    have hle := hclear hold
    have hcnt := h.cnt_of_released
    have hnew : t.status = .clear := h.status_eq_clear_iff.mpr (.inr ⟨by omega, hold⟩)
    rw [ticksLeft_set hold, ticksLeft_set hnew, h.params]; omega
  | clear =>
    replace hold := status_ne_clear_iff.mp hold
    have hge := hset hold
    have hcnt := h.cnt_of_asserted
    have hnew : t.status = .set := h.status_eq_set_iff.mpr ⟨by omega, .inr hold⟩
    rw [ticksLeft_clear hold, ticksLeft_clear hnew, h.params]; omega

theorem filterInv_of_tickAll {s t : State} {raws : List Bool} (h : tickAll raws s = .next t) (hinv : FilterInv s) :
    FilterInv t := by
  induction raws generalizing s with
  | nil => cases h; exact hinv
  | cons raw raws ih =>
    obtain ⟨u, hu, hticked⟩ := tickWith_ticked raw s
    rw [tickAll, hu, andThen_next] at h
    exact ih h (hticked.filterInv hinv)

/-- Over a list of ticks, only those that sample the level of `g` bring `g` nearer. -/
theorem ticksLeft_le_of_tickAll {s t : State} {raws : List Bool} (g : TrigStatus) (h : tickAll raws s = .next t)
    (hinv : FilterInv s) : ticksLeft g s ≤ ticksLeft g t + raws.count (g == .set) := by
  induction raws generalizing s with
  | nil => cases h; simp
  | cons raw raws ih =>
    obtain ⟨u, hu, hticked⟩ := tickWith_ticked raw s
    rw [tickAll, hu, andThen_next] at h
    have hrest := ih h (hticked.filterInv hinv)
    by_cases hraw : raw = (g == .set)
    · subst hraw
      have hfirst := hticked.ticksLeft_toward hinv
      rw [List.count_cons_self]; omega
    · have hfirst := (Bool.eq_not.mpr hraw ▸ hticked).ticksLeft_away hinv
      rw [List.count_cons_of_ne hraw]; omega

/-- Ticks that all sample the level of `g` bring `g` one nearer each. -/
theorem ticksLeft_of_tickAll_toward {s t : State} {n : Nat} {g : TrigStatus}
    (h : tickAll (List.replicate n (g == .set)) s = .next t) (hinv : FilterInv s) :
    ticksLeft g t = ticksLeft g s - n := by
  induction n generalizing s with
  | zero => cases h; rfl
  | succ n ih =>
    obtain ⟨u, hu, hticked⟩ := tickWith_ticked (g == .set) s
    rw [List.replicate_succ, tickAll, hu, andThen_next] at h
    rw [ih h (hticked.filterInv hinv), hticked.ticksLeft_toward hinv, Nat.sub_sub, Nat.add_comm]

/-- Fewer ticks than are left do not reach `g`; exactly as many do just when each samples the level of `g`. -/
theorem tickAll_reaches_iff (g : TrigStatus) (raws : List Bool) {s : State} (hinv : FilterInv s) :
    ∃ t, tickAll raws s = .next t ∧ (raws.length < ticksLeft g s → t.status ≠ g) ∧
      (raws.length = ticksLeft g s → (t.status = g ↔ ∀ raw ∈ raws, raw = (g == .set))) := by
  obtain ⟨t, ht⟩ := tickAll_answers raws s
  have htinv := filterInv_of_tickAll ht hinv
  have hle := ticksLeft_le_of_tickAll g ht hinv
  have hcount : raws.count (g == .set) ≤ raws.length := List.count_le_length
  refine ⟨t, ht, ?_⟩
  rw [ne_eq, ← ticksLeft_eq_zero_iff htinv]
  refine ⟨fun hlen => by omega, fun hlen => ⟨fun hzero => ?_, fun hall => ?_⟩⟩
  · have hfull : raws.count (g == .set) = raws.length := by omega
    exact fun raw hraw => (List.count_eq_length.mp hfull raw hraw).symm
  · rw [List.eq_replicate_of_mem hall] at ht
    rw [ticksLeft_of_tickAll_toward ht hinv, hlen, Nat.sub_self]

/-- Settles O19: the ticks left from CLEAR to SET. -/
theorem setNeedsTicks : Obligations.SetNeedsTicks := by
  intro s raws hinv hold
  simpa only [ticksLeft_set hold, status_ne_set_iff, beq_self_eq_true] using tickAll_reaches_iff .set raws hinv

/-- Settles O20: the ticks left from SET to CLEAR. -/
theorem clearNeedsTicks : Obligations.ClearNeedsTicks := by
  intro s raws hinv hold
  have hlevel : (TrigStatus.clear == .set) = false := by decide
  simpa only [ticksLeft_clear hold, status_ne_clear_iff, hlevel] using tickAll_reaches_iff .clear raws hinv

end Sys2Proof.Machine
end

section
/-!
The waiting loop (30_encoding.md R60, 41_trigger_debounce.md R86) along a run: what each kind of turn does to the
distance from the awaited status, and when the loop is left (60_exceptions.md R131, 70_reset_and_hazards.md R156).
-/

namespace Sys2Proof.Machine

theorem nextTurn_of_turnAt {s : State} {k : Nat} {x : Turn} (h : turnAt s k = some x) :
    ∃ ts, nextTurn (stateAt s k) = some (x, ts) := by
  rw [← nextTurn_stateAt, Option.map_eq_some_iff] at h
  obtain ⟨⟨_, ts⟩, hnext, rfl⟩ := h
  exact ⟨ts, hnext⟩

theorem nextRequest_of_requestAt {a : Agent} {s : State} {x : Request} (h : requestAt a s 0 = some x) :
    ∃ q, nextRequest a s = some (x, q) := by
  rw [requestAt_zero, Option.map_eq_some_iff] at h
  obtain ⟨⟨_, q⟩, hnext, rfl⟩ := h
  exact ⟨q, hnext⟩

/-- The waiting agent's turn in a run (R86): one RDTRIG's answer, the filter as it was, and the loop left exactly at the
awaited status. -/
theorem stateAt_succ_of_wait {s : State} {k : Nat} {a : Agent} {g : TrigStatus} {q : Feed Request}
    (hturn : turnAt s k = some (.agent a)) (hq : nextRequest a (stateAt s k) = some (.waitTrig g, q)) :
    (stateAt s (k + 1)).params = (stateAt s k).params ∧ (stateAt s (k + 1)).cnt = (stateAt s k).cnt ∧
      (stateAt s (k + 1)).status = (stateAt s k).status ∧
      (stateAt s (k + 1)).responses =
        { st := statusBit (stateAt s k).status, cnt := (stateAt s k).cnt } :: (stateAt s k).responses ∧
      ((stateAt s k).status = g → queueOf a (stateAt s (k + 1)) = q) ∧
      ((stateAt s k).status ≠ g → nextRequest a (stateAt s (k + 1)) = some (.waitTrig g, q)) := by
  obtain ⟨ts, hs⟩ := nextTurn_of_turnAt hturn
  obtain ⟨t, ht, hcnt, hstatus, hparams, -, -, -, hresponses, hleft, hstands⟩ := waitTrigIteration _ a g ts q hs hq
  cases ht.symm.trans (step_stateAt s k)
  exact ⟨hparams, hcnt, hstatus, hresponses, hleft, hstands⟩

/-- On another turn than its own an agent's list stands. -/
theorem queueOf_stateAt_succ_of_other_turn {s : State} {k : Nat} {a : Agent} (h : turnAt s k ≠ some (.agent a)) :
    queueOf a (stateAt s (k + 1)) = queueOf a (stateAt s k) := by
  obtain hsame | ⟨⟨ts, hs⟩, -⟩ := step_queue (step_stateAt s k) a
  · exact hsame
  · rw [← nextTurn_stateAt, hs] at h
    exact absurd rfl h

/-- The WAITTRIG stands first in its agent's list until a turn of that agent finds the awaited status. -/
theorem nextRequest_stateAt_of_unmet {s : State} {a : Agent} {g : TrigStatus} {q : Feed Request}
    (hq : nextRequest a s = some (.waitTrig g, q)) (k : Nat)
    (hunmet : ∀ j, j < k → turnAt s j = some (.agent a) → (stateAt s j).status ≠ g) :
    nextRequest a (stateAt s k) = some (.waitTrig g, q) := by
  induction k with
  | zero => exact hq
  | succ k ih =>
    have hwaits := ih fun j hj => hunmet j (by omega)
    by_cases hturn : turnAt s k = some (.agent a)
    · obtain ⟨-, -, -, -, -, hstands⟩ := stateAt_succ_of_wait hturn hwaits
      exact hstands (hunmet k (by omega) hturn)
    · rw [nextRequest, queueOf_stateAt_succ_of_other_turn hturn]
      exact hwaits

theorem decode_tickWord : decode tickWord = .ok .tick := by decide

/-- An agent's turn in a run with TICK at the head of its list: the filter is ticked and the TICK is taken off. -/
theorem stateAt_succ_of_tick {s : State} {k : Nat} {a : Agent} {p : Pins} (hturn : turnAt s k = some (.agent a))
    (hreq : requestAt a (stateAt s k) 0 = some (.word tickWord p)) :
    Ticked p.trigRaw (stateAt s k) (stateAt s (k + 1)) ∧
      ∀ i, requestAt a (stateAt s (k + 1)) i = requestAt a (stateAt s k) (i + 1) := by
  obtain ⟨ts, hs⟩ := nextTurn_of_turnAt hturn
  obtain ⟨q, hq⟩ := nextRequest_of_requestAt hreq
  have hstep := step_stateAt s k
  refine ⟨?_, fun i => ?_⟩
  · rw [step_of_word hs hq, runWord_of_decode decode_tickWord, exec_tick] at hstep
    rw [← Host.Outcome.next.inj hstep]
    constructor <;> simp
  · rw [requestAt, step_takes_word hs hq hstep]
    exact (feed_item_succ _ hq i).symm

/-- Along ticks in a row that all sample the level of `g`, the tick agent's list is used up item by item and `g` comes one
tick nearer each time. -/
theorem stateAt_of_ticks_in_row {s : State} {n : Nat} {g : TrigStatus} (hinv : FilterInv s)
    (hticks : ∀ i, i < n → ∃ p : Pins, p.trigRaw = (g == .set) ∧ requestAt .tick s i = some (.word tickWord p))
    (hturns : ∀ i, i < n → turnAt s i = some (.agent .tick)) (k : Nat) (hk : k ≤ n) :
    ticksLeft g (stateAt s k) = ticksLeft g s - k ∧
      ∀ i, requestAt .tick (stateAt s k) i = requestAt .tick s (k + i) := by
  induction k with
  | zero => exact ⟨rfl, fun i => by rw [Nat.zero_add]; rfl⟩
  | succ k ih =>
    obtain ⟨hleft, hitems⟩ := ih (by omega)
    obtain ⟨p, hp, hreq⟩ := hticks k hk
    obtain ⟨hticked, hrest⟩ := stateAt_succ_of_tick (hturns k hk) ((hitems 0).trans hreq)
    rw [hp] at hticked
    refine ⟨?_, fun i => ?_⟩
    · rw [hticked.ticksLeft_toward (filterInv_stateAt hinv k), hleft, Nat.sub_sub]
    · rw [hrest, hitems, Nat.add_right_comm, Nat.add_assoc]

/-- Settles O22: `MAX - LO + 1` ticks suffice from any state, the request standing meanwhile, and the host's turn then
finds CLEAR. -/
theorem waitClearEnds : Obligations.WaitClearEnds := by
  intro s n hq hinv hn hticks hwait hturns hhost
  obtain ⟨hleft, hitems⟩ := stateAt_of_ticks_in_row (g := .clear) hinv hticks hturns n le_rfl
  have hclear : (stateAt s n).status = .clear := by
    have hmost := ticksLeft_clear_le hinv
    rw [← ticksLeft_eq_zero_iff (filterInv_stateAt hinv n)]
    omega
  have hwaits : nextRequest .host (stateAt s n) = some (.waitTrig .clear, hq) := by
    refine nextRequest_stateAt_of_unmet hwait n fun j hj hturn => ?_
    rw [hturns j hj] at hturn
    cases hturn
  obtain ⟨-, -, hstatus, -, hdone, -⟩ := stateAt_succ_of_wait hhost hwaits
  have hother : turnAt s n ≠ some (.agent .tick) := by rw [hhost]; decide
  refine ⟨_, runSteps_eq_stateAt (n + 1) s, hstatus.trans hclear, hdone hclear, fun i => ?_, turnAt_stateAt s (n + 1)⟩
  rw [requestAt, queueOf_stateAt_succ_of_other_turn hother]
  exact hitems i

/-- Whatever is in an agent's list later in a run was in it at the start. -/
theorem exists_requestAt_stateAt (a : Agent) (s : State) (k n : Nat) :
    ∃ m, requestAt a (stateAt s k) n = requestAt a s m := by
  induction k generalizing n with
  | zero => exact ⟨n, rfl⟩
  | succ k ih =>
    obtain hsame | ⟨-, hrest⟩ := step_items (step_stateAt s k) a
    · rw [hsame]; exact ih n
    · rw [hrest]; exact ih (n + 1)

/-- With every tick sampling the level of `g`, the host waiting for `g`, and no RESET against it, no turn takes `g`
farther away. -/
theorem ticksLeft_succ_le {s : State} {k : Nat} {g : TrigStatus} {p : Pins} {q : Feed Request}
    (hinv : FilterInv (stateAt s k)) (hreset : g = .set → turnAt s k ≠ some .reset)
    (hp : p.trigRaw = (g == .set)) (htick : requestAt .tick (stateAt s k) 0 = some (.word tickWord p))
    (hwait : nextRequest .host (stateAt s k) = some (.waitTrig g, q)) :
    ticksLeft g (stateAt s (k + 1)) ≤ ticksLeft g (stateAt s k) := by
  match hturn : turnAt s k with
  | none =>
    have hnone : nextTurn (stateAt s k) = none := by rwa [← nextTurn_stateAt, Option.map_eq_none_iff] at hturn
    obtain ⟨t, ht, ⟨-, hsame⟩ | ⟨x, hx⟩⟩ := step_schedule (stateAt s k)
    · cases ht.symm.trans (step_stateAt s k)
      rw [hsame]
    · cases hnone.symm.trans hx
  | some .reset =>
    obtain ⟨ts, hs⟩ := nextTurn_of_turnAt hturn
    cases g with
    | set => exact absurd hturn (hreset rfl)
    | clear =>
      have hcleared := Host.Outcome.next.inj ((step_stateAt s k).symm.trans (resetTurn _ ts hs))
      rw [ticksLeft_of_status_eq (by rw [hcleared])]
      exact Nat.zero_le _
  | some (.agent .host) =>
    obtain ⟨hparams, hcnt, hstatus, -⟩ := stateAt_succ_of_wait hturn hwait
    exact (ticksLeft_congr hparams hcnt hstatus g).le
  | some (.agent .tick) =>
    have hticked := (stateAt_succ_of_tick hturn htick).1
    rw [hp] at hticked
    exact (hticked.ticksLeft_toward hinv).le.trans (Nat.sub_le _ _)

/-- A distance to the awaited status that never grows comes to stand still, and where the tick goes on it stands still
only at 0: so the loop's condition comes true at a turn of the fair host. -/
theorem exists_host_turn_at_target {s : State} {g : TrigStatus} {q : Feed Request} (hinv : FilterInv s)
    (hwait : nextRequest .host s = some (.waitTrig g, q))
    (hticks : ∀ n, ∃ p : Pins, p.trigRaw = (g == .set) ∧ requestAt .tick s n = some (.word tickWord p))
    (hreset : g = .set → ∀ k, turnAt s k ≠ some .reset) (hfairTick : FairFor .tick s) (hfairHost : FairFor .host s) :
    ∃ k, turnAt s k = some (.agent .host) ∧ (stateAt s k).status = g := by
  by_contra hnever
  push Not at hnever
  have hwaits (k : Nat) := nextRequest_stateAt_of_unmet hwait k fun j _ => hnever j
  have htick (k : Nat) : ∃ p : Pins, p.trigRaw = (g == .set) ∧
      requestAt .tick (stateAt s k) 0 = some (.word tickWord p) := by
    obtain ⟨m, hm⟩ := exists_requestAt_stateAt .tick s k 0
    exact hm ▸ hticks m
  have hantitone : Antitone fun k => ticksLeft g (stateAt s k) := antitone_nat_of_succ_le fun k => by
    obtain ⟨p, hp, hreq⟩ := htick k
    exact ticksLeft_succ_le (filterInv_stateAt hinv k) (fun hg => hreset hg k) hp hreq (hwaits k)
  obtain ⟨n, hstill⟩ := WellFoundedGT.monotone_chain_condition (α := ℕᵒᵈ) ⟨_, hantitone.dual_right⟩
  replace hstill (m : Nat) (hm : n ≤ m) : ticksLeft g (stateAt s n) = ticksLeft g (stateAt s m) := hstill m hm
  have hzero : ticksLeft g (stateAt s n) = 0 := by
    obtain ⟨m, hm, hturn⟩ := hfairTick n fun m _ => (enabled_iff _ _).mpr <| by
      obtain ⟨p, -, hreq⟩ := htick m
      simp [hreq]
    obtain ⟨p, hp, hreq⟩ := htick m
    have hticked := (stateAt_succ_of_tick hturn hreq).1
    rw [hp] at hticked
    have hnearer := hticked.ticksLeft_toward (filterInv_stateAt hinv m)
    rw [← hstill m hm, ← hstill (m + 1) (by omega)] at hnearer
    omega
  obtain ⟨m, hm, hturn⟩ := hfairHost n fun m _ => by simp [Enabled, hwaits m]
  rw [hstill m hm, ticksLeft_eq_zero_iff (filterInv_stateAt hinv m)] at hzero
  exact hnever m hturn hzero

/-- Settles O57: at the host's first turn that finds the awaited status the request still stands, and that turn leaves
the loop. -/
theorem waitEndsUnderFairness : Obligations.WaitEndsUnderFairness := by
  classical
  intro s g hq hinv hwait hticks hreset hfairTick hfairHost
  have hmet := exists_host_turn_at_target hinv hwait hticks hreset hfairTick hfairHost
  obtain ⟨hturn, hstatus⟩ := Nat.find_spec hmet
  have hwaits := nextRequest_stateAt_of_unmet hwait (Nat.find hmet) fun j hj hturn hg =>
    Nat.find_min hmet hj ⟨hturn, hg⟩
  obtain ⟨-, -, -, -, hdone, -⟩ := stateAt_succ_of_wait hturn hwaits
  exact ⟨_, hturn, hstatus, hwaits, hdone hstatus⟩

/-- A step takes back no answer. -/
theorem responses_suffix_of_step {s t : State} (h : step s = .next t) : s.responses <:+ t.responses := by
  obtain ⟨-, -, -, hresponses⟩ := takeTurn_keeps s
  rw [← hresponses]
  unfold step at h
  cases harrival : takeTurn s <;> rw [harrival] at h
  case idle u => cases h; exact List.suffix_rfl
  case reset u => cases h; exact List.suffix_rfl
  case wait a g u =>
    cases (serve_wait a g u).symm.trans h
    rw [goOnWaiting_responses]
    exact List.suffix_cons _ _
  case word w u =>
    obtain ⟨-, hrun⟩ | ⟨-, r, hrun⟩ := runWord_cases w u
    all_goals
      cases hrun.symm.trans h
      exact List.suffix_cons _ _

theorem monotone_length_responses (s : State) : Monotone fun k => (stateAt s k).responses.length :=
  monotone_nat_of_le_succ fun k => (responses_suffix_of_step (step_stateAt s k)).length_le

/-- Settles O58: unmet, the request stands for ever, so its agent stays enabled; fairness gives it ever another turn, and
each turn one more answer. -/
theorem unmetWaitNeverEnds : Obligations.UnmetWaitNeverEnds := by
  intro s a g q hwait hunmet
  have hwaits (k : Nat) := nextRequest_stateAt_of_unmet hwait k fun j _ => hunmet j
  have hanswers (k : Nat) (hturn : turnAt s k = some (.agent a)) : (stateAt s (k + 1)).responses =
      { st := statusBit (stateAt s k).status, cnt := (stateAt s k).cnt } :: (stateAt s k).responses := by
    obtain ⟨-, -, -, hresponses, -⟩ := stateAt_succ_of_wait hturn (hwaits k)
    exact hresponses
  refine ⟨fun k => ⟨hwaits k, hanswers k⟩, fun hfair n => ?_⟩
  induction n with
  | zero => exact ⟨0, Nat.zero_le _⟩
  | succ n ih =>
    obtain ⟨k, hk⟩ := ih
    obtain ⟨m, hm, hturn⟩ := hfair k fun m _ => by simp [Enabled, hwaits m]
    refine ⟨m + 1, ?_⟩
    rw [hanswers m hturn, List.length_cons]
    exact Nat.succ_le_succ (hk.trans (monotone_length_responses s hm))

end Sys2Proof.Machine
end

section
/-!
The block's division (00_scope.md R8, 42_format_converter.md R104): the quotient against the floor, and the remainder it
leaves, which has the sign of the dividend.
-/

namespace Sys2Proof.Machine

theorem tdiv_of_nonneg {n : Int} (hn : 0 ≤ n) (d : Nat) : tdiv n d = n / d := if_pos hn

theorem tdiv_of_neg {n : Int} (hn : n < 0) (d : Nat) : tdiv n d = -((-n) / d) := if_neg hn.not_ge

/-- The quotient exceeds the floor by one exactly for the negative dividends that the divisor does not divide (R104). -/
theorem tdiv_eq_ediv_add (n : Int) {d : Nat} (hd : 0 < d) :
    tdiv n d = n / d + if n < 0 ∧ ¬(d : Int) ∣ n then 1 else 0 := by
  have hsign : (d : Int).sign = 1 := Int.sign_eq_one_of_pos (by omega)
  rw [tdiv_eq_int_tdiv, Int.tdiv_eq_ediv, hsign, ← ite_not]
  simp only [not_or, not_le]

/-- What the quotient leaves of the dividend. -/
theorem sub_tdiv_mul_eq_tmod (n : Int) (d : Nat) : n - tdiv n d * d = n.tmod d := by
  rw [tdiv_eq_int_tdiv, Int.tmod_def, mul_comm]

/-- The remainder of a negative dividend is not positive. -/
theorem tmod_nonpos_of_neg {n : Int} (hn : n < 0) (d : Nat) : n.tmod d ≤ 0 := by
  have h := Int.tmod_nonneg (a := -n) d (by omega)
  rw [Int.neg_tmod] at h
  omega

@[simp] theorem tdiv_neg (n : Int) (d : Nat) : tdiv (-n) d = -tdiv n d := by
  simp only [tdiv_eq_int_tdiv, Int.neg_tdiv]

@[simp] theorem tdiv_one (n : Int) : tdiv n 1 = n := (tdiv_eq_int_tdiv n 1).trans (Int.tdiv_one n)

@[simp] theorem tdiv_zero (d : Nat) : tdiv 0 d = 0 := (tdiv_eq_int_tdiv 0 d).trans (Int.zero_tdiv d)

theorem natAbs_tdiv_le (n : Int) (d : Nat) : (tdiv n d).natAbs ≤ n.natAbs := by
  rw [natAbs_tdiv]
  exact Nat.div_le_self _ _

theorem tdiv_eq_zero_iff (n : Int) {d : Nat} (hd : 0 < d) : tdiv n d = 0 ↔ n.natAbs < d := by
  rw [← Int.natAbs_eq_zero, natAbs_tdiv, Nat.div_eq_zero_iff_lt hd]

/-- Settles O27: the quotient's law against the floor, and the remainder's range, sign by sign. -/
theorem truncatingDivisionLaws : Obligations.TruncatingDivisionLaws := by
  intro n d _ _ hd _ q r
  have hquot := tdiv_eq_ediv_add n hd
  have hr : r = n.tmod d := sub_tdiv_mul_eq_tmod n d
  have hbetween := tdiv_between n d
  have hsplit : q * d + r = n := add_sub_cancel (q * d) n
  have hlt : r < d := hr ▸ Int.tmod_lt_of_pos n (by omega)
  have hgt : -(d : Int) < r := hr ▸ Int.lt_tmod_of_pos n (by omega)
  have hfloor : ⌊(n : ℚ) / d⌋ = n / d := Rat.floor_intCast_div_natCast n d
  have hfloorNeg : ⌊(-n : ℚ) / d⌋ = -n / d := by exact_mod_cast Rat.floor_intCast_div_natCast (-n) d
  rw [hfloor, hfloorNeg]
  refine ⟨fun hn => ?_, fun hn => ?_, fun hn hdvd => ?_, fun hn hdvd => ?_, tdiv_neg n d,
    natAbs_tdiv_le n d, ?_, tdiv_one n, tdiv_eq_zero_iff n hd⟩
  · exact ⟨tdiv_of_nonneg hn.le d, by omega, hr ▸ Int.tmod_nonneg d hn.le, hlt⟩
  · subst hn
    exact ⟨tdiv_zero d, by simp [hr], by simp [q]⟩
  · have hr0 : r = 0 := hr.trans (Int.tmod_eq_zero_of_dvd hdvd)
    have hqd : q * d = n := by omega
    exact ⟨hqd, neg_of_mul_neg_left (hqd ▸ hn) (Int.natCast_nonneg d), hr0, by simpa [hdvd] using hquot⟩
  · have hr0 : r ≠ 0 := fun h => hdvd (Int.dvd_of_tmod_eq_zero (hr ▸ h))
    have hneg : r ≤ 0 := hr ▸ tmod_nonpos_of_neg hn d
    exact ⟨tdiv_of_neg hn d, by omega, hgt, by omega, by simpa [hn, hdvd] using hquot⟩
  · rw [natAbs_tdiv, Rat.floor_natCast_div_natCast]
    rfl

end Sys2Proof.Machine
end

section
/-!
CONV8 and CONV16 at the port (42_format_converter.md R100 to R102): which words with their `OP` are valid, and what each
operation answers.
-/

namespace Sys2Proof

/-- The flag `ST` is bit 16 of the word (R50, R53). -/
theorem stereoOfBit_st_splitWord (w : Word) : stereoOfBit (splitWord w).st = w.getLsbD 16 := by
  have hbit : ∀ b : BitVec 1, stereoOfBit b = b.getLsbD 0 := by decide
  rw [hbit, splitWord, BitVec.getLsbD_extractLsb']
  rfl

/-- The words that are read as CONV8 (R100). -/
theorem decode_of_conv8_op {w : Word} (hop : w.extractLsb' 28 4 = 0x8) (hrsv : w.extractLsb' 17 7 = 0)
    (hhigh : w.extractLsb' 8 8 = 0) (hlo : 1 ≤ (w.extractLsb' 24 4).toNat) (hhi : (w.extractLsb' 24 4).toNat ≤ 8) :
    decode w = .ok (.conv8 (w.extractLsb' 24 4) (w.getLsbD 16) (w.extractLsb' 0 8)) := by
  have hdataHigh : (splitWord w).data.extractLsb' 8 8 = w.extractLsb' 8 8 :=
    BitVec.extractLsb'_extractLsb'_of_le (by decide)
  have hdataLow : (splitWord w).data.extractLsb' 0 8 = w.extractLsb' 0 8 :=
    BitVec.extractLsb'_extractLsb'_of_le (by decide)
  rw [decode, decodeFields_of_conv8 hop hrsv (Instr.legalDiv_iff.mpr ⟨hlo, hhi⟩) (hdataHigh.trans hhigh), hdataLow,
    stereoOfBit_st_splitWord]
  rfl

/-- The words that are read as CONV16 (R101). -/
theorem decode_of_conv16_op {w : Word} (hop : w.extractLsb' 28 4 = 0x9) (hrsv : w.extractLsb' 17 7 = 0)
    (hlo : 1 ≤ (w.extractLsb' 24 4).toNat) (hhi : (w.extractLsb' 24 4).toNat ≤ 8) :
    decode w = .ok (.conv16 (w.extractLsb' 24 4) (w.getLsbD 16) (w.extractLsb' 0 16)) := by
  rw [decode, decodeFields_of_conv16 hop hrsv (Instr.legalDiv_iff.mpr ⟨hlo, hhi⟩), stereoOfBit_st_splitWord]
  rfl

/-- A converter's word whose divisor lies outside 1 to 8 is an invalid request (R57 (d)). -/
theorem invalidWord_of_illegal_div {w : Word} (hop : w.extractLsb' 28 4 = 0x8 ∨ w.extractLsb' 28 4 = 0x9)
    (hdiv : ¬(1 ≤ (w.extractLsb' 24 4).toNat ∧ (w.extractLsb' 24 4).toNat ≤ 8)) : Machine.InvalidWord w :=
  .inr (.inr (.inr (.inl ⟨hop, by omega⟩)))

end Sys2Proof

namespace Sys2Proof.Machine

/-- CONV8 by a legal divisor emits the quotient of the recentred element (R100). -/
theorem exec_conv8_of_legal {d : Div} (hlo : 1 ≤ d.toNat) (hhi : d.toNat ≤ 8) (stereo : Bool) (b : Byte)
    (s : State) : exec (.conv8 d stereo b) s =
      .next (respond (emitResponse stereo (tdiv (recentre b) d.toNat)) s) :=
  congrArg Host.Outcome.next (convert_of_legal hlo hhi _ _ s)

/-- Settles O23: the quotient is emitted, and a word with CONV8's `OP` breaks R57 (b), (e) or (d) or is an operation. -/
theorem conv8Result : Obligations.Conv8Result := by
  refine ⟨fun d b s hlo hhi => ?_, fun w s hop => ?_⟩
  · simp only [exec_conv8_of_legal hlo hhi, tdiv_eq_int_tdiv]
    exact ⟨rfl, rfl⟩
  · split
    · next h =>
      obtain ⟨hrsv, hhigh, hlo, hhi⟩ := h
      exact runWord_of_decode (decode_of_conv8_op hop hrsv hhigh hlo hhi) s
    · next h =>
      refine runWord_of_invalidWord ?_ s
      obtain hrsv | hhigh | hdiv := (not_and_or.mp h).imp_right not_and_or.mp
      · exact .inr (.inl hrsv)
      · exact .inr (.inr (.inr (.inr ⟨hop, hhigh⟩)))
      · exact invalidWord_of_illegal_div (.inl hop) hdiv

/-- Settles O24: the quotient is emitted, and a word with CONV16's `OP` breaks R57 (b) or (d) or is an operation. -/
theorem conv16Result : Obligations.Conv16Result := by
  refine ⟨fun d x s hlo hhi => ?_, fun w s hop => ?_⟩
  · simp only [exec_conv16_of_legal hlo hhi, tdiv_eq_int_tdiv]
    exact ⟨rfl, rfl⟩
  · split
    · next h =>
      obtain ⟨hrsv, hlo, hhi⟩ := h
      exact runWord_of_decode (decode_of_conv16_op hop hrsv hlo hhi) s
    · next h =>
      refine runWord_of_invalidWord ?_ s
      obtain hrsv | hdiv := not_and_or.mp h
      · exact .inr (.inl hrsv)
      · exact invalidWord_of_illegal_div (.inr hop) hdiv

/-- Settles O25: `invalid()` is the first line of both operations. -/
theorem illegalDivisorInvalid : Obligations.IllegalDivisorInvalid := fun _ _ _ _ s hd =>
  ⟨congrArg Host.Outcome.next (convert_of_illegal hd _ _ s),
    congrArg Host.Outcome.next (convert_of_illegal hd _ _ s)⟩

/-- Settles O32: a conversion's one answer is the same in every state. -/
theorem converterPurity : Obligations.ConverterPurity := by
  intro d st b x
  obtain ⟨r, hr⟩ := convert_responds (recentre b) d st
  obtain ⟨r', hr'⟩ := convert_responds (signed16 x) d st
  exact ⟨⟨r, fun s => congrArg Host.Outcome.next (hr s)⟩, ⟨r', fun s => congrArg Host.Outcome.next (hr' s)⟩⟩

/-- Settles O31: both operations emit the quotient, whichever `ST` is. -/
theorem emittedSamples : Obligations.EmittedSamples := by
  intro n i s hi
  have hexec (st : Bool) : exec (i st) s = .next (respond (emitResponse st n) s) := by
    obtain ⟨d, b, hlo, hhi, rfl, rfl⟩ | ⟨d, x, hlo, hhi, rfl, rfl⟩ := hi
    · rw [exec_conv8_of_legal hlo hhi, tdiv_eq_int_tdiv, recentre]
    · rw [exec_conv16_of_legal hlo hhi, tdiv_eq_int_tdiv, signed16]
  exact ⟨_, _, _, _, hexec false, rfl, hexec true, rfl, rfl, rfl, rfl, rfl, rfl, rfl, rfl, rfl, rfl, rfl, rfl, rfl⟩

/-- Silence is recentred to 0 (R100, R108). -/
theorem recentre_silence : recentre 128 = 0 := by decide

theorem signed16_zero : signed16 0 = 0 := by decide

/-- Settles O30: both elements stand for 0, and a quotient of 0 is 0. -/
theorem silencePreserved : Obligations.SilencePreserved := by
  intro d s hlo hhi
  rw [exec_conv16_of_legal hlo hhi, exec_conv8_of_legal hlo hhi, signed16_zero, recentre_silence, tdiv_zero]
  exact ⟨rfl, rfl⟩

end Sys2Proof.Machine
end

section
/-!
The range of a conversion (42_format_converter.md R105): 16 bits hold every quotient, so the answer's sample is the
quotient itself; its symmetry (R104), and the arithmetic shift beside it (R101 (e), R147).
-/

namespace Sys2Proof.Machine

/-- CONV8's quotient loses nothing in 16 bits. -/
theorem bits16_tdiv_recentre_toInt (b : Byte) (d : Nat) :
    (bits16 (tdiv (recentre b) d)).toInt = tdiv (recentre b) d := by
  have hb := recentre_range b
  have hq := tdiv_between (recentre b) d
  exact bits16_toInt (by omega) (by omega)

theorem tdiv_mono {n m : Int} (h : n ≤ m) {d : Nat} (hd : 0 < d) : tdiv n d ≤ tdiv m d := by
  rw [tdiv_eq_int_tdiv, tdiv_eq_int_tdiv]
  exact Int.tdiv_le_tdiv (by omega) h

/-- Only the most negative dividend, undivided, has the most negative quotient (R105). -/
theorem eq_min_of_tdiv_eq_min {n : Int} (hlo : -32768 ≤ n) (hhi : n ≤ 32767) {d : Nat} (hd : 0 < d)
    (h : tdiv n d = -32768) : n = -32768 ∧ d = 1 := by
  have hmag : n.natAbs / d = 32768 := by rw [← natAbs_tdiv, h]; rfl
  have hmul : 32768 * d ≤ n.natAbs := hmag ▸ Nat.div_mul_le_self n.natAbs d
  omega

/-- Settles O28: quotients are ordered as their dividends, so the ends of each row are the quotients of the ends of the
operands' ranges. -/
theorem converterRange : Obligations.ConverterRange := by
  intro row hrow st s
  have hends : 1 ≤ row.1.toNat ∧ row.1.toNat ≤ 8 ∧
      row.2.1 = tdiv (-32768) row.1.toNat ∧ row.2.2.1 = tdiv 32767 row.1.toNat ∧
      row.2.2.2.1 = tdiv (-32768) row.1.toNat ∧ row.2.2.2.2 = tdiv 32512 row.1.toNat := by
    revert row
    decide
  obtain ⟨hlo, hhi, hmin16, hmax16, hmin8, hmax8⟩ := hends
  rw [hmin16, hmax16, hmin8, hmax8]
  refine ⟨fun x => ?_, fun b => ?_⟩
  · obtain ⟨hx, hx'⟩ := signed16_range x
    rw [exists_lastResponse_iff (exec_conv16_of_legal hlo hhi st x s), emitResponse_a, bits16_tdiv_signed16_toInt]
    refine ⟨tdiv_eq_int_tdiv _ _, natAbs_tdiv_le _ _, tdiv_mono hx hlo, tdiv_mono hx' hlo, ?_, ?_, fun h => ?_⟩
    · rintro rfl; rfl
    · rintro rfl; rfl
    · obtain ⟨hn, hd⟩ := eq_min_of_tdiv_eq_min hx hx' hlo h
      exact ⟨BitVec.eq_of_toInt_eq hn, BitVec.eq_of_toNat_eq hd⟩
  · obtain ⟨hb, hb'⟩ := recentre_range b
    rw [exists_lastResponse_iff (exec_conv8_of_legal hlo hhi st b s), emitResponse_a, bits16_tdiv_recentre_toInt]
    refine ⟨tdiv_eq_int_tdiv _ _, natAbs_tdiv_le _ _, tdiv_mono hb hlo, tdiv_mono hb' hlo, ?_, ?_⟩
    · rintro rfl; rfl
    · rintro rfl; rfl

/-- Settles O33: the quotient of the mirror image is the mirror image, and so is its pattern. -/
theorem mirrorImages : Obligations.MirrorImages := by
  intro d st x s hlo hhi hx
  have hneg : signed16 (-x) = -signed16 x := BitVec.toInt_neg_of_ne_intMin hx
  refine ⟨_, _, _, _, exec_conv16_of_legal hlo hhi st x s, rfl, exec_conv16_of_legal hlo hhi st (-x) s, rfl, ?_, ?_⟩
  · rw [emitResponse_a, emitResponse_a, bits16_tdiv_signed16_toInt, bits16_tdiv_signed16_toInt, hneg, tdiv_neg]
  · rw [emitResponse_a, emitResponse_a, hneg, tdiv_neg]
    exact BitVec.ofInt_neg

/-- Settles O34: the shift is the floor, and the quotient's law against the floor says where they differ. -/
theorem quotientIsNoShift : Obligations.QuotientIsNoShift := by
  intro k st x s hk
  have hdiv : (BitVec.ofNat 4 (2 ^ k)).toNat = 2 ^ k := by
    obtain rfl | rfl | rfl := hk <;> rfl
  have hlo : 0 < 2 ^ k := Nat.two_pow_pos k
  have hhi : 2 ^ k ≤ 2 ^ 3 := Nat.pow_le_pow_right (by decide) (by omega)
  have hexec := exec_conv16_of_legal (hdiv.symm ▸ hlo) (hdiv.symm ▸ hhi) st x s
  rw [exists_lastResponse_iff hexec, emitResponse_a, bits16_tdiv_signed16_toInt, hdiv, tdiv_eq_ediv_add _ hlo,
    BitVec.toInt_sshiftRight, Int.shiftRight_eq_div_pow, signed16]
  push_cast
  rfl

end Sys2Proof.Machine
end

section
/-!
CONV8's recentring (42_format_converter.md R100, R106): the element as a 16-bit pattern, and the corner cases.
-/

namespace Sys2Proof.Machine

/-- To invert the top bit of a byte is to subtract its weight. -/
theorem xor_top_bit_eq_sub (b : Byte) : b ^^^ 0x80#8 = b - 0x80#8 := by
  revert b; decide

/-- Settles O29: the pattern holds `b - 128` modulo 256 in its high byte, and 16 bits hold the value. -/
theorem recentringPattern : Obligations.RecentringPattern := by
  intro b
  obtain ⟨hlo, hhi⟩ := recentre_range b
  refine ⟨?_, bits16_toInt hlo (by omega)⟩
  have hlt := b.isLt
  apply BitVec.eq_of_toNat_eq
  simp only [bits16, recentre, xor_top_bit_eq_sub, BitVec.toNat_append, BitVec.toNat_ofInt, BitVec.toNat_sub,
    BitVec.toNat_ofNat, Nat.zero_mod, Nat.or_zero]
  omega

/-- Settles O26: the element's value is divided, and 16 bits hold it. -/
theorem conv8Checkpoints : Obligations.Conv8Checkpoints := by
  intro s
  have hexec := exec_conv8_of_legal (d := 1) (by decide) (by decide) false
  refine ⟨fun d hlo hhi => ?_, fun b => ?_, ⟨_, _, hexec 0 s, rfl, by decide⟩, ⟨_, _, hexec 255 s, rfl, by decide⟩,
    ⟨_, _, exec_conv8_of_legal (by decide) (by decide) false 127 s, rfl, by decide⟩⟩
  · rw [exists_lastResponse_iff (exec_conv8_of_legal hlo hhi false 128 s), recentre_silence, tdiv_zero]
    exact ⟨rfl, rfl⟩
  · rw [exists_lastResponse_iff (hexec b s), emitResponse_a, bits16_tdiv_recentre_toInt]
    exact tdiv_one _

end Sys2Proof.Machine
end

section
/-!
The one exception, `invalid()` (60_exceptions.md R120, R121, R128), and a block that nothing is asked of (R130): what
follows an invalid word does not see it, and no well-formed operation is refused.
-/

namespace Sys2Proof.Machine

/-- Settles O53: with no turn left, the turn brings nothing. -/
theorem noTurnNoChange : Obligations.NoTurnNoChange := by
  intro s hs
  rw [step, takeTurn_none hs]; rfl

/-- Settles O39: an operation's answer and filter come from the filter before it, which `invalid()` leaves as it was, and
the operation's own pins replace those of the invalid word. -/
theorem invalidWordLeavesNoTrace : Obligations.InvalidWordLeavesNoTrace := by
  intro w p p' i s hw
  obtain ⟨r, c, st, hexec⟩ := execWith_of_sameFilter i p' s
  refine ⟨_, r, hexec s rfl rfl rfl, rfl, ?_⟩
  rw [runWord_of_invalidWord hw, andThen_next, hexec (invalid (setPins p s)) rfl rfl rfl]; rfl

@[simp] theorem emitResponse_inv (stereo : Bool) (y : Int) : (emitResponse stereo y).inv = false := by
  cases stereo <;> rfl

/-- An operation with legal operands is answered once, with `inv = 0` (R121). -/
theorem exec_answers_of_wellFormed {i : Instr} (hwf : i.wellFormed = true) (s : State) :
    ∃ t r, exec i s = .next t ∧ t.responses = r :: s.responses ∧ r.inv = false := by
  cases i with
  | tick => exact ⟨_, _, exec_tick s, rfl, rfl⟩
  | rdtrig => exact ⟨_, _, exec_rdtrig s, rfl, rfl⟩
  | volrd => exact ⟨_, _, exec_volrd s, rfl, rfl⟩
  | conv8 d st b =>
    obtain ⟨hlo, hhi⟩ := Instr.legalDiv_iff.mp hwf
    exact ⟨_, _, exec_conv8_of_legal hlo hhi st b s, rfl, emitResponse_inv st _⟩
  | conv16 d st x =>
    obtain ⟨hlo, hhi⟩ := Instr.legalDiv_iff.mp hwf
    exact ⟨_, _, exec_conv16_of_legal hlo hhi st x s, rfl, emitResponse_inv st _⟩

/-- Settles O40: a word is decoded to a well-formed operation, which does not fail, or is refused as R57 has it. -/
theorem everyWordAnswered : Obligations.EveryWordAnswered := by
  intro w s
  cases hd : decode w with
  | ok i =>
    obtain ⟨hwf, -⟩ := encodeOfDecode w i hd
    obtain ⟨t, r, hexec, hresponses, hinv⟩ := exec_answers_of_wellFormed hwf s
    refine ⟨t, r, (runWord_of_decode hd s).trans hexec, hresponses, ?_⟩
    simp only [hinv, Bool.false_eq_true, not_invalidWord_of_decode hd]
  | error e =>
    have hw : InvalidWord w := invalidWord_of_decode_error hd
    exact ⟨_, _, runWord_of_invalidWord hw s, rfl, iff_of_true rfl hw⟩

end Sys2Proof.Machine
end

section
/-!
No stop and no end (70_reset_and_hazards.md R156, R157): every state has a next one, and once every agent has issued its
whole list a turn can bring nothing but a RESET.
-/

namespace Sys2Proof.Machine

/-- Settles O41: whatever a turn brings, serving it ends in a next state. -/
theorem stepNeverStops : Obligations.StepNeverStops := by
  intro s
  obtain ⟨t, hstep, -⟩ := step_cases s
  exact ⟨t, hstep⟩

/-- Everything a step can do when the run is over: use up a turn where one is left, or apply the platform's RESET. -/
theorem step_of_runOver {s : State} (hover : RunOver s) :
    ∃ ts, step s = .next (setSchedule ts s) ∨
      nextTurn s = some (.reset, ts) ∧ step s = .next (applyReset (setSchedule ts s)) := by
  match hs : nextTurn s with
  | none => exact ⟨s.schedule, .inl (noTurnNoChange s hs)⟩
  | some (.reset, ts) => exact ⟨ts, .inr ⟨rfl, by rw [step, takeTurn_reset hs]; rfl⟩⟩
  | some (.agent a, ts) => exact ⟨ts, .inl (by rw [step, takeTurn_spent hs (hover a)]; rfl)⟩

theorem runOver_setSchedule {s : State} (hover : RunOver s) (ts : Feed Turn) : RunOver (setSchedule ts s) := fun a =>
  (nextRequest_setSchedule a ts s).trans (hover a)

theorem runOver_applyReset {s : State} (hover : RunOver s) : RunOver (applyReset s) := fun a => by
  rw [nextRequest, queueOf_applyReset]; exact hover a

/-- Settles O60, by induction on the steps: a step of a run that is over issues nothing and answers nothing, and moves the
filter only on a turn of the platform. -/
theorem runOverIsFinal : Obligations.RunOverIsFinal := by
  intro s hover k
  induction k with
  | zero => exact ⟨hover, rfl, fun _ => ⟨rfl, rfl⟩⟩
  | succ k ih =>
    obtain ⟨hoverk, hresponses, hfilter⟩ := ih
    obtain ⟨ts, hstep | ⟨hs, hstep⟩⟩ := step_of_runOver hoverk
    · rw [Host.Outcome.next.inj ((step_stateAt s k).symm.trans hstep)]
      exact ⟨runOver_setSchedule hoverk ts, hresponses, fun hreset => hfilter fun j hj => hreset j (by omega)⟩
    · rw [Host.Outcome.next.inj ((step_stateAt s k).symm.trans hstep)]
      have hturn : turnAt s k = some .reset := by rw [← nextTurn_stateAt, hs]; rfl
      exact ⟨runOver_applyReset (runOver_setSchedule hoverk ts), hresponses,
        fun hreset => absurd hturn (hreset k (by omega))⟩

end Sys2Proof.Machine
end
